-- ==== Sys2Proof/Word.lean ====
section
/-! DEFINITION. The word types of the block: a byte, a request word, a host address (spec 00 R10, 30 R71, 20 R51). -/

namespace Sys2Proof

/-- A byte, 8 bits: every register and every access of the block has this width (00 R8 `REG_W`, R10). -/
abbrev Byte := BitVec 8

/-- One bus operation as a 16-bit request word, the spec's notation for an access (30 R70, R71). -/
abbrev ReqWord := BitVec 16

end Sys2Proof
end

