-- ==== Sys2Proof/Config.lean ====
section
/-! DEFINITION. What an implementation fixes and what stays free: the constants the spec gives, the OPEN parameters of
spec 00 R8 with their legality, and the opaque oracles (draws, the peer, how long an exchange takes). -/

namespace Sys2Proof

/-- A level of the chip-select line (10 R23: bit 1 is high, bit 0 is low). -/
inductive Level where
  | low
  | high
deriving DecidableEq, Repr, Inhabited

/-- The order in which the bits of a byte leave on the wire; no rule reads it (20 R53, 41 R148). -/
inductive BitOrder where
  | msbFirst
  | lsbFirst
deriving DecidableEq, Repr, Inhabited

/-- The OPEN parameters of 00 R8. `BASE` is not among them: it is the operand of `attach` (20 R51, 45 R210). -/
structure Params where
  /-- `STATUS_DONE_BIT` (D2). -/
  statusDoneBit : Fin 8
  /-- `CFG_EN_BIT` (D3). -/
  enBit : Fin 8
  /-- `CFG_MASTER_BIT` (D3). -/
  masterBit : Fin 8
  /-- `CFG_SPEED_LSB`; the field is this bit and the next (D3). -/
  speedLsb : Fin 7
  /-- `SPEED_FASTEST` (D4). -/
  speedFastest : BitVec 2
  /-- `CS_ACTIVE_LEVEL` (D17). -/
  csActiveLevel : Level
  /-- `DONE_CLEARED_BY_DATA_READ` (D12). -/
  doneClearedByDataRead : Bool
  /-- `POLL_LIMIT`: `none` is the unbounded busy-wait (D21). -/
  pollLimit : Option Nat
  /-- `ENGINE_COMPLETES` (D19). -/
  engineCompletes : Bool
  /-- `ADDR_W` (D26). -/
  addrW : Nat
  /-- `WIRE_BIT_ORDER`, read by no rule (D7). -/
  wireBitOrder : BitOrder
  /-- `CPOL`, read by no rule (D30). -/
  cpol : Bool
  /-- `CPHA`, read by no rule (D30). -/
  cpha : Bool
deriving DecidableEq, Repr

/-- EN and MASTER name different bits (00 R8). -/
def Params.enMasterApart (P : Params) : Bool := P.enBit.val != P.masterBit.val

/-- A bit lies outside the SPEED field `{CFG_SPEED_LSB, CFG_SPEED_LSB+1}` (00 R8). -/
def Params.outsideSpeed (P : Params) (bit : Fin 8) : Bool :=
  bit.val != P.speedLsb.val && bit.val != P.speedLsb.val + 1

/-- `POLL_LIMIT = some 0` is an ill-formed parameter (43 R174). -/
def Params.pollLimitOk (P : Params) : Bool := P.pollLimit != some 0

/-- The parameters are well-formed: the CONFIG fields name pairwise disjoint bits and a poll limit is at least 1
(00 R8, 43 R174). -/
def Params.wf (P : Params) : Bool :=
  P.enMasterApart && P.outsideSpeed P.enBit && P.outsideSpeed P.masterBit && P.pollLimitOk

/-- The reference instantiation of decision D39, used only in tests. `ADDR_W` and the wire parameters have no reference
value in the spec: 32 bits and the first of each are this model's (log entry 1). -/
def Params.reference : Params where
  statusDoneBit := 0
  enBit := 0
  masterBit := 1
  speedLsb := 2
  speedFastest := 0b00#2
  csActiveLevel := .high
  doneClearedByDataRead := false
  pollLimit := none
  engineCompletes := true
  addrW := 32
  wireBitOrder := .msbFirst
  cpol := false
  cpha := false

/-- A legal instantiation: the parameters with the proof that they are well-formed (00 R8: "A model instantiated
otherwise is ill-formed"). -/
structure LegalParams where
  params : Params := .reference
  legal : params.wf = true := by decide
deriving Inhabited, DecidableEq, Repr

/-- The instantiation of the actual hardware, of which the spec fixes nothing but its legality (00 R8). -/
opaque Config.instantiation : LegalParams

/-- The OPEN parameters a machine has right after reset; opaque, so nothing can be proved of them but `Params.wf`. -/
def Config.params : Params := Config.instantiation.params

/-- The events of the history (10 R31). Declared here because the peer oracle reads the history. -/
inductive LogKind where
  /-- `E_CONFIG`, code 1: unsupported word width (60 R224, R225). -/
  | eConfig
  /-- `E_MAPPING`, code 2: base address unavailable or invalid (60 R224, R227). -/
  | eMapping
  /-- `E_NON_RESPONSE`, code 3: the poll limit ran out (60 R224, R226). -/
  | eNonResponse
deriving DecidableEq, Repr

/-- The protocol error codes of 60 R224. -/
def LogKind.code : LogKind → Nat
  | .eConfig => 1
  | .eMapping => 2
  | .eNonResponse => 3

/-- The two callbacks the framework requires (30 R82, 45 R212). -/
inductive Callback where
  | transferOne
  | setChipSelect
deriving DecidableEq, Repr

/-- The capabilities `attach` registers (45 R212). -/
structure Caps where
  numChipSelects : Nat
  bitsPerWord : List Nat
  csActiveHigh : Bool
  callbacks : List Callback
deriving DecidableEq, Repr

/-- One event of the history (10 R31). -/
inductive Event where
  /-- One host write of `v` at offset `off`. -/
  | busW (off : BitVec 4) (v : Byte)
  /-- One host read at offset `off`, with the byte it returned. -/
  | busR (off : BitVec 4) (v : Byte)
  /-- An exchange starts, with outgoing byte `t` and the line level. -/
  | xStart (t : Byte) (cs : Option Level)
  /-- An exchange completes, with outgoing `t`, incoming `r` and the line level. -/
  | xEnd (t r : Byte) (cs : Option Level)
  /-- A diagnostic log entry; its text is not modelled (43 R187). -/
  | log (kind : LogKind)
  /-- The framework notification. -/
  | finalize
  /-- `transfer_one` returned `n`. -/
  | ret (n : Nat)
  /-- `attach` wrote CONFIG. -/
  | cfgDone
  /-- `attach` registered with the framework. -/
  | registered (caps : Caps)
  /-- `attach` aborted. -/
  | attachFail
deriving DecidableEq, Repr

/-- `draw8()`: the n-th free byte, with no law connecting two uses (00 R11). No body: a free value. -/
opaque Config.draw : Nat → Byte

/-- The peer oracle `peer(hist, t, cs, ch)`, the free choice `ch` a number drawn afresh (41 R143). No body: a free value. -/
opaque Config.peer : List Event → Byte → Option Level → Nat → Byte

/-- How many host turns fall between an exchange's start and its completion, when it completes (41 R147). No body. -/
opaque Config.exchangeTurns : Nat → Nat

/-- Whether an exchange never completes; read only when `ENGINE_COMPLETES` is false (41 R146). No body. -/
opaque Config.exchangeHangs : Nat → Bool

/-- `IDLE_BYTE`, emitted when no source buffer is given (00 R8, 43 R173). -/
def Config.idleByte : Byte := 0xFF#8

/-- `WORD_BITS`, the only supported bits-per-word (00 R8). -/
def Config.wordBits : Nat := 8

/-- `NUM_CS`, the number of chip-select lines (00 R8, 44 R201). -/
def Config.numCs : Nat := 1

/-- `WINDOW`, the size in bytes of the decoded register window (00 R8, 20 R50). -/
def Config.window : Nat := 16

/-- The device-tree compatible string by which the platform matches the block (00 R2, 45 R213). -/
def Config.compatible : String := "saber,saber-spi"

/-- `CAPS`, what attach registers with the framework (45 R212). -/
def Config.caps : Caps where
  numChipSelects := Config.numCs
  bitsPerWord := [Config.wordBits]
  csActiveHigh := true
  callbacks := [.transferOne, .setChipSelect]

end Sys2Proof
end

