-- ==== Sys2Proof/Syntax.lean ====
section
/-! DEFINITION. The syntax of the block: its registers and their offsets, the request word's fields, the eight bus
operations of spec/opcode_table.json, and the names of faults and refusals (spec 10 R20, 30 R71, R74, 60 R222, R230). -/

namespace Sys2Proof

/-- The four memory-mapped registers (10 R20). -/
inductive Reg where
  | data
  | status
  | config
  | cs
deriving DecidableEq, Repr

/-- The byte offset of a register within the window (00 R8, 20 R50). -/
def Reg.offset : Reg → BitVec 4
  | .data => 0x0#4
  | .status => 0x4#4
  | .config => 0x8#4
  | .cs => 0xC#4

/-- The fields of a request word, format BUS (30 R71). -/
structure Request where
  /-- Bit 15, reserved, must be 0. -/
  rsv : Bool
  /-- Bits 14:13, log2 of the access size in bytes. -/
  size : BitVec 2
  /-- Bit 12, 1 for a write. -/
  write : Bool
  /-- Bits 11:8, the byte offset within the window. -/
  off : BitVec 4
  /-- Bits 7:0, the byte written; must be 0x00 for a read. -/
  wdata : Byte
deriving DecidableEq, Repr

/-- The eight bus operations, one constructor per row of the opcode map (30 R74). -/
inductive Instr where
  /-- WR_DATA v (40 R102). -/
  | wrData (v : Byte)
  /-- RD_DATA (40 R104). -/
  | rdData
  /-- RD_STATUS (40 R106). -/
  | rdStatus
  /-- WR_STATUS v (40 R108). -/
  | wrStatus (v : Byte)
  /-- WR_CONFIG v (40 R110). -/
  | wrConfig (v : Byte)
  /-- RD_CONFIG (40 R111). -/
  | rdConfig
  /-- WR_CS v (40 R112). -/
  | wrCs (v : Byte)
  /-- RD_CS (40 R113). -/
  | rdCs
deriving DecidableEq, Repr

/-- The register a bus operation reaches (30 R73). -/
def Instr.reg : Instr → Reg
  | .wrData _ => .data
  | .rdData => .data
  | .rdStatus => .status
  | .wrStatus _ => .status
  | .wrConfig _ => .config
  | .rdConfig => .config
  | .wrCs _ => .cs
  | .rdCs => .cs

/-- The pseudo-operations of 30 R81. -/
inductive Pseudo where
  | poll
  | xfer (b : Byte)
  | csOn
  | csOff
  | cfgInit
deriving DecidableEq, Repr

/-- The fault codes of 60 R222. -/
inductive FaultCode where
  /-- `F_MALFORMED`: request word bit 15 set, or a read with nonzero WDATA (30 R73, 40 R117). -/
  | malformed
  /-- `F_WIDTH`: size other than one byte (40 R116). -/
  | width
  /-- `F_OFFSET`: a reserved offset (40 R115). -/
  | offset
  /-- `F_STATUS_WR`: any write to STATUS (40 R108). -/
  | statusWr
  /-- `F_NOT_CONFIGURED`: a DATA write with CONFIG unwritten or EN or MASTER clear (40 R102). -/
  | notConfigured
  /-- `F_DATA_WR_BUSY`: a DATA write with an exchange in flight (40 R102). -/
  | dataWrBusy
  /-- `F_DATA_RD_BUSY`: a DATA read with an exchange in flight (40 R104). -/
  | dataRdBusy
  /-- `F_CFG_RESERVED`: a reserved CONFIG bit set (40 R110). -/
  | cfgReserved
  /-- `F_CFG_SPEED`: SPEED is not SPEED_FASTEST (40 R110). -/
  | cfgSpeed
  /-- `F_CFG_BUSY`: a CONFIG write with an exchange in flight (40 R110). -/
  | cfgBusy
  /-- `F_CS_VALUE`: a CS value other than 0x00 and 0x01 (40 R112). -/
  | csValue
  /-- `F_CS_BUSY`: a CS write with an exchange in flight (40 R112). -/
  | csBusy
deriving DecidableEq, Repr

/-- The numbering of 60 R222. -/
def FaultCode.code : FaultCode → Nat
  | .malformed => 1
  | .width => 2
  | .offset => 3
  | .statusWr => 4
  | .notConfigured => 5
  | .dataWrBusy => 6
  | .dataRdBusy => 7
  | .cfgReserved => 8
  | .cfgSpeed => 9
  | .cfgBusy => 10
  | .csValue => 11
  | .csBusy => 12

/-- A recorded fault: its code and the request word that raised it (60 R222). -/
structure FaultRecord where
  code : FaultCode
  req : ReqWord
deriving DecidableEq, Repr

/-- The refusals of 60 R230: calls outside the host contract. -/
inductive RefusalCode where
  /-- `REF_PRECONDITION`: called in the wrong attach state. A bus operation issued after a failed attach is refused under
  this name too (20 R51, 45 R211; log entry 18). -/
  | precondition
  /-- `REF_REENTRANT`: called while a transfer is in progress. -/
  | reentrant
  /-- `REF_DESC`: a buffer's length differs from `len`. -/
  | desc
deriving DecidableEq, Repr

/-- A host buffer: its base address and its length in bytes (43 R170). -/
structure Buffer where
  base : Nat
  len : Nat
deriving DecidableEq, Repr

/-- The transfer descriptor, the operands of one `transfer_one` call (00 R13, 43 R170). -/
structure Descriptor where
  bpw : Nat
  len : Nat
  tx : Option Buffer
  rx : Option Buffer
deriving DecidableEq, Repr

end Sys2Proof
end

