-- ==== Sys2Proof/WellFormed.lean ====
section
/-! DEFINITION. Well-formedness: the four checks on a request word in the decoder's order (spec 30 R73), the shape of
a transfer descriptor (43 R171), and a valid base (20 R51). The parameters' check is `Params.wf` in Config.lean. -/

namespace Sys2Proof

/-- Bit 15 is 0 (30 R71, R73). -/
def Request.rsvClear (q : Request) : Bool := !q.rsv

/-- The access is of one byte (20 R54, 40 R116). -/
def Request.oneByte (q : Request) : Bool := q.size == 0b00#2

/-- The offset is that of a register (20 R50, 40 R115). -/
def Request.offsetDecodes (q : Request) : Bool :=
  q.off == Reg.data.offset || q.off == Reg.status.offset || q.off == Reg.config.offset || q.off == Reg.cs.offset

/-- A read carries no data (30 R71, R73). -/
def Request.readCarriesNothing (q : Request) : Bool := q.write || q.wdata == 0x00#8

/-- The first check that fails decides the fault; `none` when the request is legal (30 R73, 60 R223). -/
def Request.problem (q : Request) : Option FaultCode :=
  if !q.rsvClear then some .malformed
  else if !q.oneByte then some .width
  else if !q.offsetDecodes then some .offset
  else if !q.readCarriesNothing then some .malformed
  else none

/-- A request is well-formed when the decoder finds no problem in it (30 R73). -/
def Request.wf (q : Request) : Bool := q.problem == none

/-- A buffer, when given, has exactly `len` bytes (43 R171). -/
def Buffer.fits (len : Nat) : Option Buffer → Bool
  | none => true
  | some b => b.len == len

/-- The descriptor's shape: both buffers fit (43 R171, R172). -/
def Descriptor.wf (d : Descriptor) : Bool := Buffer.fits d.len d.tx && Buffer.fits d.len d.rx

/-- A valid base: no register address of the window wraps (20 R51). -/
def baseOk (P : Params) (base : Nat) : Bool := decide (base + (Config.window - 1) < 2 ^ P.addrW)

/-- The request an instruction stands for, field by field (30 R71, R74). -/
def Instr.request : Instr → Request
  | .wrData v => ⟨false, 0b00#2, true, Reg.data.offset, v⟩
  | .rdData => ⟨false, 0b00#2, false, Reg.data.offset, 0x00#8⟩
  | .rdStatus => ⟨false, 0b00#2, false, Reg.status.offset, 0x00#8⟩
  | .wrStatus v => ⟨false, 0b00#2, true, Reg.status.offset, v⟩
  | .wrConfig v => ⟨false, 0b00#2, true, Reg.config.offset, v⟩
  | .rdConfig => ⟨false, 0b00#2, false, Reg.config.offset, 0x00#8⟩
  | .wrCs v => ⟨false, 0b00#2, true, Reg.cs.offset, v⟩
  | .rdCs => ⟨false, 0b00#2, false, Reg.cs.offset, 0x00#8⟩

/-- An instruction is well-formed when its request is; every operand is a whole byte, so every instruction is (30 R72). -/
def Instr.wf (i : Instr) : Bool := i.request.wf

end Sys2Proof
end

