-- ==== Sys2Proof/Decode.lean ====
section
/-! DEFINITION. The decoder of request words, total on all 65536 of them, the encoder beside it, and the two readings
the host asks for (spec 30 R71 to R75, 60 R223). -/

namespace Sys2Proof

/-- The fields of a request word (30 R71). -/
def requestOfWord (w : ReqWord) : Request where
  rsv := w.getLsbD 15
  size := w.extractLsb' 13 2
  write := w.getLsbD 12
  off := w.extractLsb' 8 4
  wdata := w.extractLsb' 0 8

/-- The request word of the fields, bit 15 first (30 R71). -/
def wordOfRequest (q : Request) : ReqWord :=
  BitVec.ofBool q.rsv ++ q.size ++ BitVec.ofBool q.write ++ q.off ++ q.wdata

/-- The operation a checked request selects (30 R73, the case table). -/
def selectOp (write : Bool) (off : BitVec 4) (v : Byte) : Option Instr :=
  match write with
  | true =>
    if off = Reg.data.offset then some (.wrData v)
    else if off = Reg.status.offset then some (.wrStatus v)
    else if off = Reg.config.offset then some (.wrConfig v)
    else if off = Reg.cs.offset then some (.wrCs v)
    else none
  | false =>
    if off = Reg.data.offset then some .rdData
    else if off = Reg.status.offset then some .rdStatus
    else if off = Reg.config.offset then some .rdConfig
    else if off = Reg.cs.offset then some .rdCs
    else none

/-- Decoding a request: the checks in order, then the case table (30 R73). -/
def decodeRequest (q : Request) : Except FaultCode Instr :=
  match q.problem with
  | some c => .error c
  | none =>
    match selectOp q.write q.off q.wdata with
    | some i => .ok i
    | none => .error .offset

/-- `decode(req)` of 30 R73: total, every word either one of the eight operations or a named fault. -/
def decode (w : ReqWord) : Except FaultCode Instr := decodeRequest (requestOfWord w)

/-- The request word of an instruction (30 R72, R74). -/
def encode (i : Instr) : ReqWord := wordOfRequest i.request

/-- The `match` column of the opcode map: the word with every operand bit 0 (30 R74). -/
def Instr.tableMatch : Instr → ReqWord
  | .wrData _ => 0x1000#16
  | .rdData => 0x0000#16
  | .rdStatus => 0x0400#16
  | .wrStatus _ => 0x1400#16
  | .wrConfig _ => 0x1800#16
  | .rdConfig => 0x0800#16
  | .wrCs _ => 0x1C00#16
  | .rdCs => 0x0C00#16

/-- The `mask` column of the opcode map (30 R74). -/
def Instr.tableMask : Instr → ReqWord
  | .wrData _ => 0xFF00#16
  | .rdData => 0xFFFF#16
  | .rdStatus => 0xFFFF#16
  | .wrStatus _ => 0xFF00#16
  | .wrConfig _ => 0xFF00#16
  | .rdConfig => 0xFFFF#16
  | .wrCs _ => 0xFF00#16
  | .rdCs => 0xFFFF#16

/-- A request word numbered as the opcode table numbers it: one 16-bit word, bit 0 the least significant (30 R77). A
number given with fewer than 16 bits is read as the request word whose upper bits are 0, and one with more is no request
word: the model's choice, since 30 R77 gives every request word 16 bits (DESIGN CHOICE, log entry 16). -/
def requestOfTable (nbits w : Nat) : Option ReqWord :=
  if nbits ≤ 16 ∧ w < 2 ^ nbits then some (BitVec.ofNat 16 w) else none

/-- The instruction the decoder reads from the table's numbering of a word; none where it refuses. -/
def decodeTableWord (nbits w : Nat) : Option Instr :=
  match requestOfTable nbits w with
  | none => none
  | some req =>
    match decode req with
    | .ok i => some i
    | .error _ => none

end Sys2Proof
end

