-- ==== Sys2Proof/Machine/State.lean ====
section
/-! DEFINITION. The state of the model as plain data (spec 10 R23, R31 to R33, 20 R52), the reasons a step can stop,
and the state after reset (10 R34, R35, 70 R250). -/

namespace Sys2Proof.Machine

/-- Whether an exchange is in flight, and the byte being shifted out (10 R23, 41 R140). -/
inductive Engine where
  | idle
  | busy (t : Byte)
deriving DecidableEq, Repr

/-- The device state `dev` (10 R23). -/
structure Device where
  /-- Contents of CONFIG; `none` = never written since reset. -/
  cfg : Option Byte
  /-- The chip-select line level last written; `none` = never written. -/
  cs : Option Level
  /-- The exchange in flight. -/
  eng : Engine
  /-- The transfer-complete flag; `none` = unknown since reset. -/
  done : Option Bool
  /-- The byte shifted in by the last completed exchange. -/
  rx : Option Byte
  /-- The first fault raised; never cleared. -/
  fault : Option FaultRecord
  /-- The refusal, with its name; the spec's `dev.refused` is whether there is one (60 R230). -/
  refusal : Option RefusalCode
deriving DecidableEq, Repr

/-- The attach status (10 R32). -/
inductive Attach where
  | unattached
  | attached
  | attachFailed
deriving DecidableEq, Repr

/-- The states of the register protocol FSM (10 R33). -/
inductive Pc where
  | idle
  | check
  | emit
  | poll
  | read
  | store
  | finish
deriving DecidableEq, Repr

/-- The Device Handle: the four mapped register addresses (00 R13, 45 R210). -/
structure Handle where
  data : Nat
  status : Nat
  config : Nat
  cs : Nat
deriving DecidableEq, Repr

/-- The register protocol FSM's state `fsm` (10 R32); `handle` is the Device Handle attach creates. -/
structure Fsm where
  att : Attach
  handle : Option Handle
  pc : Pc
  bpw : Nat
  len : Nat
  tx : Option Buffer
  rx : Option Buffer
  i : Nat
  b : Byte
  polls : Nat
  r : Byte
  ret : Nat
deriving DecidableEq, Repr

/-- One turn of the host agent (00 R7, 30 R80 to R82, 45 R216), or an event from outside (45 R217, 70 R251). -/
inductive HostAct where
  /-- Issue one raw bus operation, given as its request word. -/
  | bus (w : ReqWord)
  /-- Call `attach` with the platform's answer (45 R210). -/
  | attach (map : Option Nat)
  /-- Call `configure` directly (42 R160, R161). -/
  | configure
  /-- Call `transfer_one` (43 R170). -/
  | transferOne (d : Descriptor)
  /-- Call `set_chip_select` (44 R200). -/
  | setChipSelect (active : Bool)
  /-- Let the protocol FSM take one transition. -/
  | proceed
  /-- Let the protocol FSM run until it is back in IDLE. -/
  | await
  /-- The pseudo-operation `poll`: read STATUS until DONE reads 1, whatever the poll limit (30 R81; log entry 19). -/
  | poll
  /-- The driver is loaded again once no transfer is in progress: a new launch, the device kept (45 R215, R217). -/
  | reload
  /-- The block is reset (70 R251). -/
  | reset
deriving DecidableEq, Repr

/-- The state of the model. `params`, `script`, `due` and `draws` are the model's own (log entries 1 to 4). -/
structure State where
  /-- The OPEN parameters of 00 R8; no step changes them. -/
  params : Params
  /-- The device. -/
  dev : Device
  /-- The event history, oldest first (10 R31). -/
  hist : List Event
  /-- The register protocol FSM. -/
  fsm : Fsm
  /-- Host memory (20 R52): addresses strictly rising, no entry equal to what an unlisted address reads as. -/
  mem : List Host.Cell
  /-- The host agent's turns to come, the next one first. -/
  script : List HostAct
  /-- While an exchange is in flight: the host turns that fall before the engine's step; `none` = it never falls. -/
  due : Option Nat
  /-- How many free choices have been taken. -/
  draws : Nat
deriving DecidableEq, Repr

/-- Why a step answers a fault. -/
inductive Fault where
  /-- Raised by every step and every meaning in a state whose `dev.fault` records a fault: after a fault no agent has a
  step (40 R100, 60 R221). Safe: the model stops where the spec leaves the hardware's behaviour undefined. -/
  | stopped (f : FaultRecord)
deriving DecidableEq, Repr

/-- Why a step answers a refusal. -/
inductive Refusal where
  /-- Raised by an arm of `exec` whose instruction has no meaning yet; no arm does. Safe. -/
  | notModelled (mnemonic : String)
  /-- Raised by every step and every meaning in a state that is marked refused: after a refusal no agent steps
  (40 R100, 60 R230). Safe: a call outside the host contract has no meaning. -/
  | stopped (c : RefusalCode)
deriving DecidableEq, Repr

/-- The device right after reset (10 R34). -/
def Device.reset : Device where
  cfg := none
  cs := none
  eng := .idle
  done := none
  rx := none
  fault := none
  refusal := none

/-- The protocol FSM right after reset and at every launch (10 R35, 45 R217); the fields the spec calls irrelevant
until written are zero or absent (log entry 5). -/
def Fsm.reset : Fsm where
  att := .unattached
  handle := none
  pc := .idle
  bpw := 0
  len := 0
  tx := none
  rx := none
  i := 0
  b := 0x00#8
  polls := 0
  r := 0x00#8
  ret := 0

/-- The machine right after reset (10 R34, R35, 70 R250). -/
def State.reset : State where
  params := Config.params
  dev := Device.reset
  hist := []
  fsm := Fsm.reset
  mem := []
  script := []
  due := none
  draws := 0

end Sys2Proof.Machine
end

