-- ==== Sys2Proof/Machine/Ops.lean ====
section
/-! DEFINITION. The shared operations: events, free choices, taking a fault and a refusal, host memory, starting an
exchange, and what every bus operation does with its result (spec 00 R11, 20 R52, 40 R100, R101, 60 R221, R230). -/

namespace Sys2Proof.Machine

/-- `emit(ev)`: append to the event history (00 R11, 10 R31). -/
def State.emit (e : Event) (s : State) : State := { s with hist := s.hist ++ [e] }

/-- Replace the device state. -/
def State.setDev (d : Device) (s : State) : State := { s with dev := d }

/-- Replace the protocol FSM's state. -/
def State.setFsm (f : Fsm) (s : State) : State := { s with fsm := f }

/-- Replace host memory. -/
def State.setMem (m : List Host.Cell) (s : State) : State := { s with mem := m }

/-- Replace the host agent's turns to come. -/
def State.setScript (l : List HostAct) (s : State) : State := { s with script := l }

/-- Set how many host turns fall before the engine's step. -/
def State.setDue (d : Option Nat) (s : State) : State := { s with due := d }

/-- Advance the counter of free choices. -/
def State.takeChoice (s : State) : State := { s with draws := s.draws + 1 }

/-- `draw8()`: a fresh byte chosen freely, and the state after it (00 R11). -/
def draw8 (s : State) : Byte × State := (Config.draw s.draws, s.takeChoice)

/-- Taking a fault, the one operation: `dev.fault` records the first fault, with its request word, and nothing else
changes (40 R100, 60 R221, R222). -/
def State.raiseFault (c : FaultCode) (w : ReqWord) (s : State) : State :=
  match s.dev.fault with
  | some _ => s
  | none => s.setDev { s.dev with fault := some ⟨c, w⟩ }

/-- `refuse(REF_x)`: mark the whole state refused, and nothing else (00 R11, 60 R230). -/
def State.refuse (c : RefusalCode) (s : State) : State :=
  s.setDev { s.dev with refusal := some c }

/-- The spec's `dev.refused` (10 R23). -/
def Device.refused (d : Device) : Bool := d.refusal.isSome

/-- An agent may step: no fault, no refusal (40 R100). -/
def State.live (s : State) : Bool := s.dev.fault.isNone && !s.dev.refused

/-- Nothing steps after a fault or a refusal; otherwise the given outcome (40 R100). -/
def whenLive (s : State) (k : Host.Outcome State Fault Refusal) : Host.Outcome State Fault Refusal :=
  match s.dev.fault with
  | some f => .fault (.stopped f)
  | none =>
    match s.dev.refusal with
    | some c => .refused (.stopped c)
    | none => k

/-- A bus operation's result made a state: its own, or the fault taken from the state before it (40 R100). -/
def commit (i : Instr) (s : State) : Except FaultCode State → State
  | .ok t => t
  | .error c => s.raiseFault c (encode i)

/-- A bus operation as a step (40 R100). -/
def runBus (i : Instr) (s : State) (r : Except FaultCode State) : Host.Outcome State Fault Refusal :=
  whenLive s (.next (commit i s r))

/-- What an unlisted address of host memory reads as (log entry 6). -/
def Memory.blank : Byte := 0x00#8

/-- `MemRead(a, 1)` (00 R11, 20 R52). -/
def Memory.read : List Host.Cell → Nat → Byte
  | [], _ => Memory.blank
  | (k, v) :: m, a => if a = k then v else Memory.read m a

/-- A cell put before a memory whose addresses all lie above it, left out when it holds what an unlisted address reads. -/
def Memory.cons (a : Nat) (v : Byte) (m : List Host.Cell) : List Host.Cell :=
  if v = Memory.blank then m else (a, v) :: m

/-- `MemWrite(a, 1, v)`, keeping the canonical form (00 R11, 20 R52). -/
def Memory.write : List Host.Cell → Nat → Byte → List Host.Cell
  | [], a, v => Memory.cons a v []
  | (k, w) :: m, a, v =>
    if a < k then Memory.cons a v ((k, w) :: m)
    else if a = k then Memory.cons a v m
    else (k, w) :: Memory.write m a v

/-- Every address of the memory lies above `a`. -/
def Memory.above (a : Nat) (m : List Host.Cell) : Bool := m.all fun c => decide (a < c.1)

/-- The canonical form: addresses strictly rising, no entry equal to what an unlisted address reads as. -/
def Memory.wf : List Host.Cell → Bool
  | [] => true
  | (k, v) :: m => v != Memory.blank && Memory.above k m && Memory.wf m

/-- How many host turns fall before the engine completes the exchange being started; `none` = never, which only
`ENGINE_COMPLETES = false` allows (41 R146, R147). -/
def exchangeDelay (P : Params) (n : Nat) : Option Nat :=
  if !P.engineCompletes && Config.exchangeHangs n then none else some (Config.exchangeTurns n)

/-- The bus address of an offset: `BASE + zext(OFF)` (30 R72). -/
def busAddr (base : Nat) (off : BitVec 4) : Nat := base + off.toNat

/-- The Device Handle of a mapped base (45 R210). -/
def Handle.ofBase (base : Nat) : Handle where
  data := busAddr base Reg.data.offset
  status := busAddr base Reg.status.offset
  config := busAddr base Reg.config.offset
  cs := busAddr base Reg.cs.offset

end Sys2Proof.Machine
end

