-- ==== Sys2Proof/Machine/Operands.lean ====
section
/-! DEFINITION. The operand forms: CONFIG's fields and the startup byte (spec 00 R9, 10 R29, 30 R78), CS values and
line levels (10 R25, R30, 30 R79), and the STATUS byte (10 R28, 40 R106). -/

namespace Sys2Proof.Machine

/-- The byte with only bit `k` set. -/
def bitMask (k : Nat) : Byte := 1#8 <<< k

/-- A byte with bit `k` set to `b` and every other bit kept. -/
def setBit (s : Byte) (k : Nat) (b : Bool) : Byte :=
  if b then s ||| bitMask k else s &&& ~~~(bitMask k)

/-- EN = v[CFG_EN_BIT] (30 R78). -/
def cfgEn (P : Params) (v : Byte) : Bool := v.getLsbD P.enBit.val

/-- MASTER = v[CFG_MASTER_BIT] (30 R78). -/
def cfgMaster (P : Params) (v : Byte) : Bool := v.getLsbD P.masterBit.val

/-- SPEED = v[CFG_SPEED_LSB+1 : CFG_SPEED_LSB] (30 R78). -/
def cfgSpeed (P : Params) (v : Byte) : BitVec 2 := v.extractLsb' P.speedLsb.val 2

/-- The bits of CONFIG that have a name (10 R29, 30 R78). -/
def cfgNamed (P : Params) : Byte := bitMask P.enBit.val ||| bitMask P.masterBit.val ||| (3#8 <<< P.speedLsb.val)

/-- RSVD: the bits of a value that lie in no named field (30 R78). -/
def cfgRsvd (P : Params) (v : Byte) : Byte := v &&& ~~~(cfgNamed P)

/-- `CONFIG_INIT`, the byte the startup configurator writes (00 R9). -/
def configInit (P : Params) : Byte :=
  bitMask P.enBit.val ||| bitMask P.masterBit.val ||| (P.speedFastest.setWidth 8 <<< P.speedLsb.val)

/-- The line level a bit stands for: 1 is high, 0 is low (10 R23, R30). -/
def levelOfBit (b : Bool) : Level := if b then .high else .low

/-- CS's legal values: 0x00 and 0x01 (10 R30, 30 R79). -/
def csValueLegal (v : Byte) : Bool := v == 0x00#8 || v == 0x01#8

/-- The byte `set_chip_select` writes (44 R200). -/
def csByte (active : Bool) : Byte := if active then 0x01#8 else 0x00#8

/-- `cs_asserted`, unknown while no level is known (10 R25, 44 R203). -/
def csAsserted (P : Params) (d : Device) : Option Bool := d.cs.map fun l => l == P.csActiveLevel

/-- A STATUS byte: the DONE bit in its place in a byte whose other bits are drawn (40 R106). -/
def statusByte (P : Params) (other : Byte) (bit : Bool) : Byte := setBit other P.statusDoneBit.val bit

/-- The DONE bit of a STATUS byte (10 R28). -/
def statusDone (P : Params) (s : Byte) : Bool := s.getLsbD P.statusDoneBit.val

end Sys2Proof.Machine
end

