-- ==== Sys2Proof/Machine/Flags.lean ====
section
/-! DEFINITION. The one status flag DONE: what clears it, what sets it, and what it reads as (spec 10 R26). -/

namespace Sys2Proof.Machine

/-- The DATA write clears DONE and puts the exchange in flight, in one step (10 R26, 40 R102). -/
def Device.startExchange (v : Byte) (d : Device) : Device := { d with eng := .busy v, done := some false }

/-- The engine sets DONE, with the byte shifted in, and is idle again (10 R26, 41 R141). -/
def Device.completeExchange (r : Byte) (d : Device) : Device :=
  { d with eng := .idle, done := some true, rx := some r }

/-- The DATA read clears DONE only when `DONE_CLEARED_BY_DATA_READ` (10 R26, 40 R104). -/
def Device.afterDataRead (P : Params) (d : Device) : Device :=
  if P.doneClearedByDataRead then { d with done := some false } else d

/-- What DONE reads as: the flag, or bit 0 of a draw while it is unknown (10 R36, 40 R106). -/
def readDone (s : State) : Bool × State :=
  match s.dev.done with
  | some d => (d, s)
  | none => ((draw8 s).1.getLsbD 0, (draw8 s).2)

end Sys2Proof.Machine
end

