-- ==== Sys2Proof/Machine/ChipSelect.lean ====
section
/-! DEFINITION. The CS family: WR_CS and RD_CS (spec 40 R112, R113). -/

namespace Sys2Proof.Machine

/-- `WR_CS(v)`: busy, then value, then the line takes the level of bit 0 (40 R112, 60 R223). -/
def wrCs (v : Byte) (s : State) : Except FaultCode State :=
  match s.dev.eng with
  | .busy _ => .error .csBusy
  | .idle =>
    if csValueLegal v then
      .ok ((s.setDev { s.dev with cs := some (levelOfBit (v.getLsbD 0)) }).emit (.busW Reg.cs.offset v))
    else .error .csValue

/-- `RD_CS`: a draw (40 R113). -/
def rdCs (s : State) : Byte × State :=
  let (r, t) := draw8 s
  (r, t.emit (.busR Reg.cs.offset r))

/-- WR_CS v (40 R112). -/
def execWrCs (v : Byte) (s : State) : Host.Outcome State Fault Refusal :=
  runBus (.wrCs v) s (wrCs v s)

/-- RD_CS (40 R113). -/
def execRdCs (s : State) : Host.Outcome State Fault Refusal :=
  runBus .rdCs s (.ok (rdCs s).2)

end Sys2Proof.Machine
end

