-- ==== Sys2Proof/Machine/ConfigReg.lean ====
section
/-! DEFINITION. The CONFIG family: WR_CONFIG and RD_CONFIG (spec 40 R110, R111). -/

namespace Sys2Proof.Machine

/-- `WR_CONFIG(v)`: busy, then reserved bits, then speed, then the value is stored (40 R110, 60 R223). -/
def wrConfig (v : Byte) (s : State) : Except FaultCode State :=
  match s.dev.eng with
  | .busy _ => .error .cfgBusy
  | .idle =>
    if cfgRsvd s.params v ≠ 0x00#8 then .error .cfgReserved
    else if cfgSpeed s.params v ≠ s.params.speedFastest then .error .cfgSpeed
    else .ok ((s.setDev { s.dev with cfg := some v }).emit (.busW Reg.config.offset v))

/-- `RD_CONFIG`: a draw, whatever was written (40 R111). -/
def rdConfig (s : State) : Byte × State :=
  let (r, t) := draw8 s
  (r, t.emit (.busR Reg.config.offset r))

/-- WR_CONFIG v (40 R110). -/
def execWrConfig (v : Byte) (s : State) : Host.Outcome State Fault Refusal :=
  runBus (.wrConfig v) s (wrConfig v s)

/-- RD_CONFIG (40 R111). -/
def execRdConfig (s : State) : Host.Outcome State Fault Refusal :=
  runBus .rdConfig s (.ok (rdConfig s).2)

end Sys2Proof.Machine
end

