-- ==== Sys2Proof/Machine/Data.lean ====
section
/-! DEFINITION. The DATA family: WR_DATA and RD_DATA (spec 40 R102, R104). -/

namespace Sys2Proof.Machine

/-- A DATA write accepted: the write is recorded, DONE is cleared, the exchange is in flight and its start is recorded;
when the engine's step falls is chosen freely (40 R102, 41 R147). -/
def beginExchange (v : Byte) (s : State) : State :=
  let t := s.emit (.busW Reg.data.offset v)
  let t := t.setDev (t.dev.startExchange v)
  let t := t.emit (.xStart v t.dev.cs)
  (t.setDue (exchangeDelay t.params t.draws)).takeChoice

/-- `WR_DATA(v)`: busy, then configured, then the exchange starts (40 R102, 60 R223). -/
def wrData (v : Byte) (s : State) : Except FaultCode State :=
  match s.dev.eng with
  | .busy _ => .error .dataWrBusy
  | .idle =>
    match s.dev.cfg with
    | none => .error .notConfigured
    | some c =>
      if cfgEn s.params c && cfgMaster s.params c then .ok (beginExchange v s) else .error .notConfigured

/-- The byte a DATA read obtains: the received one while DONE says it is ready, a draw otherwise (40 R104). -/
def dataReadValue (s : State) : Byte × State :=
  if s.dev.done = some true then
    match s.dev.rx with
    | some x => (x, s)
    | none => draw8 s
  else draw8 s

/-- `RD_DATA`: the byte read and the state after it (40 R104). -/
def rdData (s : State) : Except FaultCode (Byte × State) :=
  match s.dev.eng with
  | .busy _ => .error .dataRdBusy
  | .idle =>
    let (r, t) := dataReadValue s
    .ok (r, (t.setDev (t.dev.afterDataRead t.params)).emit (.busR Reg.data.offset r))

/-- WR_DATA v (40 R102). -/
def execWrData (v : Byte) (s : State) : Host.Outcome State Fault Refusal :=
  runBus (.wrData v) s (wrData v s)

/-- RD_DATA (40 R104). -/
def execRdData (s : State) : Host.Outcome State Fault Refusal :=
  runBus .rdData s ((rdData s).map Prod.snd)

end Sys2Proof.Machine
end

