-- ==== Sys2Proof/Machine/Status.lean ====
section
/-! DEFINITION. The STATUS family: RD_STATUS and WR_STATUS (spec 40 R106, R108). -/

namespace Sys2Proof.Machine

/-- `RD_STATUS`: the DONE bit in its place, every other bit a draw; no side effect on the device (40 R106). -/
def rdStatus (s : State) : Byte × State :=
  let (bit, t) := readDone s
  let (other, u) := draw8 t
  let v := statusByte u.params other bit
  (v, u.emit (.busR Reg.status.offset v))

/-- `WR_STATUS(v)` always faults (40 R108). -/
def wrStatus (_v : Byte) (_s : State) : Except FaultCode State := .error .statusWr

/-- RD_STATUS (40 R106). -/
def execRdStatus (s : State) : Host.Outcome State Fault Refusal :=
  runBus .rdStatus s (.ok (rdStatus s).2)

/-- WR_STATUS v (40 R108): it takes the fault `F_STATUS_WR`. -/
def execWrStatus (v : Byte) (s : State) : Host.Outcome State Fault Refusal :=
  runBus (.wrStatus v) s (wrStatus v s)

end Sys2Proof.Machine
end

