-- ==== Sys2Proof/Machine/Dispatch.lean ====
section
/-! DEFINITION. One arm per bus operation of spec/opcode_table.json. -/

namespace Sys2Proof.Machine

def exec (i : Instr) (s : State) : Host.Outcome State Fault Refusal :=
  match i with
  | .wrData v => Sys2Proof.Machine.execWrData v s
  | .rdData => Sys2Proof.Machine.execRdData s
  | .rdStatus => Sys2Proof.Machine.execRdStatus s
  | .wrStatus v => Sys2Proof.Machine.execWrStatus v s
  | .wrConfig v => Sys2Proof.Machine.execWrConfig v s
  | .rdConfig => Sys2Proof.Machine.execRdConfig s
  | .wrCs v => Sys2Proof.Machine.execWrCs v s
  | .rdCs => Sys2Proof.Machine.execRdCs s

end Sys2Proof.Machine
end

