-- ==== Sys2Proof/Machine/Transfer.lean ====
section
/-! DEFINITION. The register protocol FSM: `transfer_one` and its transitions CHECK, EMIT, POLL, READ, STORE, FINISH
(spec 43 R170 to R177). Each is one atomic step of the host agent. A fault inside one leaves everything but `dev.fault`
as it was (60 R221). -/

namespace Sys2Proof.Machine

/-- The FSM entering a call (43 R170). Its index is kept within the new length, which is its range in 10 R32; nothing reads
it before CHECK sets it (log entry 20). -/
def Fsm.enter (d : Descriptor) (f : Fsm) : Fsm :=
  { f with bpw := d.bpw, len := d.len, tx := d.tx, rx := d.rx, i := min f.i d.len, pc := .check }

/-- `transfer_one(bpw, len, tx, rx)`: refused before attach or while a transfer is in progress, otherwise to CHECK
(43 R170). -/
def callTransferOne (d : Descriptor) (s : State) : State :=
  if s.fsm.att ≠ .attached then s.refuse .precondition
  else if s.fsm.pc ≠ .idle then s.refuse .reentrant
  else s.setFsm (s.fsm.enter d)

/-- The descriptor of the call in progress has the right shape (43 R171). -/
def Fsm.buffersFit (f : Fsm) : Bool := Buffer.fits f.len f.tx && Buffer.fits f.len f.rx

/-- `CHECK` (43 R172): buffer lengths, then the word width, then the first byte or the end. -/
def fsmCheck (s : State) : State :=
  if !s.fsm.buffersFit then s.refuse .desc
  else if s.fsm.bpw ≠ Config.wordBits then
    (s.emit (.log .eConfig)).setFsm { s.fsm with ret := 0, pc := .finish }
  else
    s.setFsm { s.fsm with i := 0, ret := s.fsm.len, pc := if s.fsm.len = 0 then .finish else .emit }

/-- The byte to emit for the current index: of the source buffer, or the idle byte (43 R173). -/
def emitByte (s : State) : Byte :=
  match s.fsm.tx with
  | some a => Memory.read s.mem (a.base + s.fsm.i)
  | none => Config.idleByte

/-- `EMIT` (43 R173): write the byte to DATA and go to POLL. -/
def fsmEmit (s : State) : State :=
  match wrData (emitByte s) s with
  | .error c => s.raiseFault c (encode (.wrData (emitByte s)))
  | .ok t => t.setFsm { t.fsm with b := emitByte s, polls := 0, pc := .poll }

/-- The count 10 R32 describes: the STATUS reads made for the current byte, counted only when `POLL_LIMIT = some n`; without
a limit there is no count to read. It is a view of `fsm.polls`, which 43 R174 assigns at every read of DONE = 0 (log entry
15). -/
def Fsm.countedPolls (P : Params) (f : Fsm) : Option Nat := P.pollLimit.map fun _ => f.polls

/-- The poll limit has run out: there is one, and the count has reached it (43 R174). -/
def pollExpired (P : Params) (f : Fsm) : Bool :=
  match P.pollLimit, f.countedPolls P with
  | some m, some n => decide (m ≤ n)
  | _, _ => false

/-- One more read of DONE = 0 for the current byte (43 R174). -/
def Fsm.countPoll (f : Fsm) : Fsm := { f with polls := f.polls + 1 }

/-- What POLL does after a read of DONE = 0 (43 R174). -/
def pollAgain (s : State) : State :=
  let f := s.fsm.countPoll
  if pollExpired s.params f then
    (s.emit (.log .eNonResponse)).setFsm { f with ret := f.i, pc := .finish }
  else s.setFsm { f with pc := .poll }

/-- `POLL` (43 R174): one STATUS read; to READ when DONE reads 1. -/
def fsmPoll (s : State) : State :=
  let (v, t) := rdStatus s
  if statusDone t.params v then t.setFsm { t.fsm with pc := .read } else pollAgain t

/-- `READ` (43 R175): one DATA read. -/
def fsmRead (s : State) : State :=
  match rdData s with
  | .error c => s.raiseFault c (encode .rdData)
  | .ok (r, t) => t.setFsm { t.fsm with r := r, pc := .store }

/-- Host memory after STORE keeps or discards the received byte (43 R176). -/
def storedMem (s : State) : List Host.Cell :=
  match s.fsm.rx with
  | some a => Memory.write s.mem (a.base + s.fsm.i) s.fsm.r
  | none => s.mem

/-- `STORE` (43 R176): keep or discard the byte, and advance. -/
def fsmStore (s : State) : State :=
  (s.setMem (storedMem s)).setFsm
    { s.fsm with i := s.fsm.i + 1, pc := if s.fsm.i + 1 = s.fsm.len then .finish else .emit }

/-- `FINISH` (43 R177): finalize once and return the count. -/
def fsmFinish (s : State) : State :=
  ((s.emit .finalize).emit (.ret s.fsm.ret)).setFsm { s.fsm with pc := .idle }

/-- One transition of the protocol FSM; in IDLE there is none (10 R33). -/
def fsmStep (s : State) : State :=
  match s.fsm.pc with
  | .idle => s
  | .check => fsmCheck s
  | .emit => fsmEmit s
  | .poll => fsmPoll s
  | .read => fsmRead s
  | .store => fsmStore s
  | .finish => fsmFinish s

end Sys2Proof.Machine
end

