-- ==== Sys2Proof/Machine/Driver.lean ====
section
/-! DEFINITION. The host-level calls beside `transfer_one`: `configure`, `attach`, `set_chip_select`, and the two
events from outside, reload and reset (spec 42 R160, R161, 44 R200, 45 R210, R211, R217, 70 R250, R251). -/

namespace Sys2Proof.Machine

/-- `configure()`, given its precondition: the one CONFIG write and its event (42 R160). -/
def configure (s : State) : Except FaultCode State :=
  match wrConfig (configInit s.params) s with
  | .error c => .error c
  | .ok t => .ok (t.emit .cfgDone)

/-- A direct call of `configure()`: refused unless a base is mapped and the driver is not yet attached (42 R160, R161). -/
def callConfigure (s : State) : State :=
  if s.fsm.att = .unattached && s.fsm.handle.isSome then
    commit (.wrConfig (configInit s.params)) s (configure s)
  else s.refuse .precondition

/-- Attach aborts: no handle, no bus operation (45 R211, 60 R227). -/
def attachFail (s : State) : State := (s.emit .attachFail).setFsm { s.fsm with att := .attachFailed }

/-- Attach with a mapped base: the handle, the CONFIG write, the registration (45 R210). -/
def attachMapped (base : Nat) (s : State) : Except FaultCode State :=
  match configure (s.setFsm { s.fsm with handle := some (Handle.ofBase base) }) with
  | .error c => .error c
  | .ok t => .ok ((t.emit (.registered Config.caps)).setFsm { t.fsm with att := .attached, pc := .idle })

/-- `attach(map)`: refused when not unattached; a missing or invalid base aborts it (45 R210, R211, 60 R227, 20 R51). -/
def callAttach (map : Option Nat) (s : State) : State :=
  if s.fsm.att ≠ .unattached then s.refuse .precondition
  else
    match map with
    | none => attachFail s
    | some base =>
      if baseOk s.params base then commit (.wrConfig (configInit s.params)) s (attachMapped base s)
      else attachFail s

/-- `set_chip_select(active)`: refused before attach or during a transfer, otherwise one CS write (44 R200). -/
def callSetChipSelect (active : Bool) (s : State) : State :=
  if s.fsm.att ≠ .attached then s.refuse .precondition
  else if s.fsm.pc ≠ .idle then s.refuse .reentrant
  else commit (.wrCs (csByte active)) s (wrCs (csByte active) s)

/-- The driver is loaded again: a new launch of the FSM, the device as the previous load left it (45 R217). -/
def reload (s : State) : State := s.setFsm Fsm.reset

/-- The block is reset: the device, the FSM and the history take their reset values; host memory, the host's turns and
the parameters are not the block's (70 R250, R251). -/
def resetBlock (s : State) : State :=
  { s with dev := Device.reset, hist := [], fsm := Fsm.reset, due := none }

end Sys2Proof.Machine
end

