-- ==== Sys2Proof/Machine/Engine.lean ====
section
/-! DEFINITION. The engine agent and the peer oracle (spec 41 R141 to R147). -/

namespace Sys2Proof.Machine

/-- A peer: the byte shifted back, from the history, the byte shifted out, the line level and a free choice (41 R143). -/
abbrev Peer := List Event → Byte → Option Level → Nat → Byte

/-- The source's example peer, which echoes each byte (41 R143). -/
def Peer.echo : Peer := fun _ t _ _ => t

/-- `ENGINE_COMPLETE` with a given peer; a state with no exchange in flight is left as it is (41 R141). -/
def engineCompleteWith (peer : Peer) (s : State) : State :=
  match s.dev.eng with
  | .idle => s
  | .busy t =>
    let r := peer s.hist t s.dev.cs s.draws
    let u := (s.setDev (s.dev.completeExchange r)).emit (.xEnd t r s.dev.cs)
    (u.setDue none).takeChoice

/-- `ENGINE_COMPLETE` with the peer on the bus, of which nothing is known (41 R141, R143). -/
def engineComplete (s : State) : State := engineCompleteWith Config.peer s

/-- The engine's step comes next: an exchange is in flight and no host turn falls before its end (41 R141, R147). -/
def State.engineDue (s : State) : Bool :=
  match s.dev.eng, s.due with
  | .busy _, some 0 => true
  | _, _ => false

/-- One host turn passes before the engine's step (41 R147). -/
def State.tick (s : State) : State := s.setDue (s.due.map fun k => k - 1)

end Sys2Proof.Machine
end

