-- ==== Sys2Proof/Machine/Turn.lean ====
section
/-! DEFINITION. Whose turn it is and what a turn does: the engine's completion step, or the host's next turn, which
issues a request word, makes a call, or lets the protocol FSM run (spec 00 R7, 20 R55, R58, 30 R73, R81, 60 R228). -/

namespace Sys2Proof.Machine

/-- A request word reaches the block: decoded and executed, or the decoder's fault taken (30 R73, 40 R115 to R117). -/
def runRequest (w : ReqWord) (s : State) : Host.Outcome State Fault Refusal :=
  match decode w with
  | .ok i => exec i s
  | .error c => whenLive s (.next (s.raiseFault c w))

/-- The pseudo-operation `poll`: one STATUS read, and the same turn again while DONE reads 0 (30 R81). DESIGN CHOICE: it is
never cut off, under `POLL_LIMIT = some n` either, for which 30 R81 does not say what it does (log entry 19). -/
def pollTurn (rest : List HostAct) (s : State) : State :=
  let (v, t) := rdStatus s
  if statusDone t.params v then t.setScript rest else t

/-- The turn in which the host waits for the transfer: an FSM transition, or the end of the waiting (43 R170). -/
def awaitTurn (rest : List HostAct) (s : State) : State :=
  if s.fsm.pc = .idle then s.setScript rest else fsmStep s

/-- The driver is loaded again: at once in IDLE; before that the transfer in progress runs on, so that the Device Handle is
never freed under it (45 R215, R217; log entry 11). -/
def reloadTurn (rest : List HostAct) (s : State) : State :=
  if s.fsm.pc = .idle then reload (s.setScript rest) else fsmStep s

/-- A turn in which the host itself issues a bus operation: after a failed attach none exists, so the turn is refused and
nothing is issued (20 R51, 45 R211; log entry 18). -/
def issueTurn (rest : List HostAct) (s : State) (k : Host.Outcome State Fault Refusal) :
    Host.Outcome State Fault Refusal :=
  if s.fsm.att = .attachFailed then .next ((s.setScript rest).refuse .precondition) else k

/-- The host agent's turn. With no turn listed the protocol FSM runs on; in IDLE nothing happens (60 R241). -/
def hostTurn (s : State) : Host.Outcome State Fault Refusal :=
  match s.script with
  | [] => .next (fsmStep s)
  | .bus w :: rest => issueTurn rest s (runRequest w (s.setScript rest))
  | .attach m :: rest => .next (callAttach m (s.setScript rest))
  | .configure :: rest => .next (callConfigure (s.setScript rest))
  | .transferOne d :: rest => .next (callTransferOne d (s.setScript rest))
  | .setChipSelect a :: rest => .next (callSetChipSelect a (s.setScript rest))
  | .proceed :: rest => .next (fsmStep (s.setScript rest))
  | .await :: rest => .next (awaitTurn rest s)
  | .poll :: rest => issueTurn rest s (.next (pollTurn rest s))
  | .reload :: rest => .next (reloadTurn rest s)
  | .reset :: rest => .next (resetBlock (s.setScript rest))

/-- One turn of one agent; after a fault or a refusal there is none (40 R100, 60 R228). -/
def takeTurn (s : State) : Host.Outcome State Fault Refusal :=
  whenLive s (if s.engineDue then .next (engineComplete s) else hostTurn s.tick)

/-- The next turn is the host's: an engine step that would come first comes right after it. -/
def postponeEngine (s : State) : State := if s.engineDue then s.setDue (some 1) else s

/-- A request word made the host's very next turn. -/
def placeRequest (w : ReqWord) (s : State) : State := (postponeEngine s).setScript (.bus w :: s.script)

/-- A word numbered as the opcode table numbers it, made the host's very next turn; a number that is no request word is
placed by its low 16 bits (log entry 16). -/
def placeTableWord (nbits w : Nat) (s : State) : State :=
  match requestOfTable nbits w with
  | some req => placeRequest req s
  | none => placeRequest (BitVec.ofNat 16 w) s

/-- The request words and host turns a pseudo-operation expands to (30 R81). -/
def expandPseudo (P : Params) : Pseudo → List HostAct
  | .poll => [.poll]
  | .xfer b => [.bus (encode (.wrData b)), .poll, .bus (encode .rdData)]
  | .csOn => [.bus (encode (.wrCs 0x01#8))]
  | .csOff => [.bus (encode (.wrCs 0x00#8))]
  | .cfgInit => [.bus (encode (.wrConfig (configInit P)))]

end Sys2Proof.Machine
end

