-- ==== Sys2Proof/Machine/Step.lean ====
section
/-! DEFINITION. The step of the machine, and a request word placed where the step takes its next one. -/

namespace Sys2Proof.Machine

/-- One step: one turn of one agent (spec 20 R55, 60 R228). -/
def step (s : State) : Host.Outcome State Fault Refusal := takeTurn s

/-- `s` with a table word placed as the host's very next turn (log entry 2). -/
def State.withFetchWord (s : State) (nbits w : Nat) : State := placeTableWord nbits w s

end Sys2Proof.Machine
end

