-- ==== Sys2Proof/Safety.lean ====
section
/-! DEFINITION. What claims are stated in: the end of a run and its observation (spec 60 R241), and the invariants of
the state (10 R21, R24, R32, 20 R52, 40 R110, 43 R170 to R177). -/

namespace Sys2Proof.Machine

/-- A run is over (60 R241): the host has no further call, the FSM and the engine are idle, no fault, no refusal. -/
def State.final (s : State) : Bool :=
  s.script == [] && s.fsm.pc == .idle && s.dev.eng == .idle && s.live

/-- The observation of a run: its history and host memory (60 R241). -/
def State.observation (s : State) : List Event × List Host.Cell := (s.hist, s.mem)

/-- While an exchange is in flight DONE is clear (10 R24). -/
def Device.busyClear (d : Device) : Bool :=
  match d.eng with
  | .busy _ => d.done == some false
  | .idle => true

/-- DONE set means that a byte has been received (10 R26, 41 R141). -/
def Device.doneHasByte (d : Device) : Bool := d.done != some true || d.rx.isSome

/-- What CONFIG holds, once written, has no reserved bit and the fastest speed (40 R110). -/
def Device.cfgLegal (P : Params) (d : Device) : Bool :=
  match d.cfg with
  | none => true
  | some c => cfgRsvd P c == 0x00#8 && cfgSpeed P c == P.speedFastest

/-- The FSM is working on a byte of a transfer. -/
def Pc.inLoop : Pc → Bool
  | .emit | .poll | .read | .store => true
  | .idle | .check | .finish => false

/-- In the loop, the descriptor has passed CHECK and the byte index is in range (10 R21, R32, 43 R172, R176). -/
def Fsm.loopOk (f : Fsm) : Bool :=
  !f.pc.inLoop || (f.bpw == Config.wordBits && f.buffersFit && decide (f.i < f.len) && f.ret == f.len)

/-- The index of the current byte lies within the length (10 R32). -/
def Fsm.indexOk (f : Fsm) : Bool := decide (f.i ≤ f.len)

/-- Outside IDLE the driver is attached (43 R170). -/
def Fsm.attachedOk (f : Fsm) : Bool := f.pc == .idle || f.att == .attached

/-- The Device Handle exists exactly while attached (45 R210, R211, R215). -/
def Fsm.handleOk (f : Fsm) : Bool := f.handle.isSome == (f.att == .attached)

/-- No engine step is awaited while no exchange is in flight (41 R141). -/
def State.dueOk (s : State) : Bool := s.dev.eng != .idle || s.due == none

/-- The invariant of the model. -/
def State.Inv (s : State) : Prop :=
  s.params.wf = true ∧ s.dev.busyClear = true ∧ s.dev.doneHasByte = true ∧ s.dev.cfgLegal s.params = true ∧
  s.fsm.loopOk = true ∧ s.fsm.indexOk = true ∧ s.fsm.attachedOk = true ∧ s.fsm.handleOk = true ∧
  s.dueOk = true ∧ Memory.wf s.mem = true

/-- A turn that only makes a call or waits: no raw bus operation, which the protocol never issues (30 R82). -/
def HostAct.isProtocol : HostAct → Bool
  | .bus _ => false
  | .poll => false
  | .reset => false
  | .attach _ | .configure | .transferOne _ | .setChipSelect _ | .proceed | .await | .reload => true

/-- Every turn to come is a protocol turn: the block is driven by the register protocol alone (30 R82, 42 R162). -/
def State.protocolOnly (s : State) : Bool := s.script.all HostAct.isProtocol

/-- DONE is known while the FSM polls, and set when it goes on to read (43 R174, R175, R182). -/
def State.pollOk (s : State) : Bool :=
  match s.fsm.pc with
  | .poll => s.dev.done.isSome
  | .read => s.dev.done == some true
  | .idle | .check | .emit | .store | .finish => true

/-- An exchange is in flight only while the FSM polls (43 R173, R174). -/
def State.busyOnlyInPoll (s : State) : Bool := s.dev.eng == .idle || s.fsm.pc == .poll

/-- While attached, CONFIG holds what the startup configurator wrote (42 R160, R162). -/
def State.configuredOk (s : State) : Bool :=
  s.fsm.att != .attached || s.dev.cfg == some (configInit s.params)

/-- The block is driven by the register protocol alone, reloads included, with the source's unbounded poll, and no fault
has occurred. -/
def State.Clean (s : State) : Prop :=
  s.Inv ∧ s.protocolOnly = true ∧ s.params.pollLimit = none ∧ s.pollOk = true ∧ s.busyOnlyInPoll = true ∧
  s.configuredOk = true ∧ s.dev.fault = none

end Sys2Proof.Machine
end

