-- ==== Sys2Proof/Certificates/Slice0/Obligations.lean ====
section
/-! DEFINITION. The statements for the provers, from the spec's numbered rules. -/

namespace Sys2Proof.Claims

open Sys2Proof.Machine

/-- The state with a fault recorded and nothing else changed (40 R100, 60 R221, R222). -/
def faulted (s : State) (c : FaultCode) (w : ReqWord) : State :=
  { s with dev := { s.dev with fault := some ⟨c, w⟩ } }

/-- The state marked refused and nothing else changed (60 R230). -/
def refused (s : State) (c : RefusalCode) : State :=
  { s with dev := { s.dev with refusal := some c } }

/-- The request word of a write: its row of 30 R74 with the byte written in the low half. -/
def writeWord (row : ReqWord) (v : Byte) : ReqWord := row ||| v.setWidth 16

/-- The state with the host's next turn taken off the script and one host turn passed. -/
def popped (s : State) (rest : List HostAct) : State :=
  { s with script := rest, due := s.due.map fun k => k - 1 }

/-- Nothing of the host's side has changed: parameters, FSM, turns to come, and every byte of host memory. -/
def hostSame (s t : State) : Prop :=
  t.params = s.params ∧ t.fsm = s.fsm ∧ t.script = s.script ∧ ∀ a, Memory.read t.mem a = Memory.read s.mem a

/-- CONFIG is written and has EN and MASTER set (40 R102). -/
def configured (s : State) : Prop :=
  ∃ c, s.dev.cfg = some c ∧ c.getLsbD s.params.enBit.val = true ∧ c.getLsbD s.params.masterBit.val = true

/-- The history has grown by exactly the events listed, in that order (10 R31). -/
def adds (s t : State) (l : List Event) : Prop := t.hist = s.hist ++ l

/-- The events that are bus operations. -/
def isBusEvent : Event → Bool
  | .busW _ _ | .busR _ _ => true
  | .xStart _ _ | .xEnd _ _ _ | .log _ | .finalize | .ret _ | .cfgDone | .registered _ | .attachFail => false

/-- The one bus event of a completed operation, `r` the byte a read returned (40 R101). -/
def opEvent (r : Byte) : Instr → Event
  | .wrData v => .busW 0x0#4 v
  | .rdData => .busR 0x0#4 r
  | .rdStatus => .busR 0x4#4 r
  | .wrStatus v => .busW 0x4#4 v
  | .wrConfig v => .busW 0x8#4 v
  | .rdConfig => .busR 0x8#4 r
  | .wrCs v => .busW 0xC#4 v
  | .rdCs => .busR 0xC#4 r

/-- STATUS reads whose DONE bit is `d`, and nothing else. -/
def pollsSeeing (P : Params) (d : Bool) (l : List Event) : Prop :=
  ∀ e ∈ l, ∃ z : Byte, e = .busR 0x4#4 z ∧ z.getLsbD P.statusDoneBit.val = d

/-- The trace of a transfer's bytes, one group a byte, sent and received bytes in order (43 R179). -/
def groupTrace (P : Params) (cs : Option Level) : List (Byte × Byte) → List Event → Prop
  | [], l => l = []
  | (b, r) :: xs, l =>
    ∃ (zs : List Event) (v : Byte) (rest : List Event),
      l = [Event.busW 0x0#4 b, Event.xStart b cs] ++ zs ++ [Event.xEnd b r cs, Event.busR 0x4#4 v, Event.busR 0x0#4 r] ++ rest ∧
      pollsSeeing P false zs ∧ v.getLsbD P.statusDoneBit.val = true ∧ groupTrace P cs xs rest

/-- Storing into `rx` never changes a byte of `tx` that is still to be sent (in place is fine). -/
def noOverrun (f : Fsm) : Prop :=
  ∀ a b, f.tx = some a → f.rx = some b → ∀ i j, j < i → i < f.len → b.base + j ≠ a.base + i

end Sys2Proof.Claims

open Sys2Proof Sys2Proof.Machine Sys2Proof.Claims

/-! ## Encoding -/

/-- Request words written out from the opcode map and the vectors V1.1 to V1.21 (30 R74, 95 §2.1). -/
def Obligations.KnownWordsDecode : Prop :=
  decode 0b0001000011111111#16 = .ok (.wrData 0xFF#8) ∧
  decode 0b0000000000000000#16 = .ok .rdData ∧
  decode 0b0000010000000000#16 = .ok .rdStatus ∧
  decode 0b0001010000000000#16 = .ok (.wrStatus 0x00#8) ∧
  decode 0b0001100000000011#16 = .ok (.wrConfig 0x03#8) ∧
  decode 0b0000100000000000#16 = .ok .rdConfig ∧
  decode 0b0001110000000001#16 = .ok (.wrCs 0x01#8) ∧
  decode 0b0000110000000000#16 = .ok .rdCs ∧
  decode 0xFFFF#16 = .error .malformed ∧
  decode 0x2100#16 = .error .width ∧
  decode 0x0101#16 = .error .offset ∧
  decode 0x0401#16 = .error .malformed

/-- Decoding and encoding agree in both directions: every well-formed operation, with every operand, decodes from its
own word, and no other word decodes to it (30 R72 to R74). -/
def Obligations.DecodeEncodeAgree : Prop :=
  (∀ i : Instr, i.wf = true → decode (encode i) = .ok i) ∧
  (∀ (w : ReqWord) (i : Instr), decode w = .ok i → w = encode i)

/-- 30 R73: the checks in order, then the case table, on the word's own bits. -/
def Obligations.DecodeChecksInOrder : Prop :=
  ∀ w : ReqWord,
    decode w =
      if w.getLsbD 15 = true then .error .malformed
      else if w.extractLsb' 13 2 ≠ 0b00#2 then .error .width
      else if w.extractLsb' 8 4 ∉ [0x0#4, 0x4#4, 0x8#4, 0xC#4] then .error .offset
      else if w.getLsbD 12 = false ∧ w.extractLsb' 0 8 ≠ 0x00#8 then .error .malformed
      else if w.getLsbD 12 = true then
        if w.extractLsb' 8 4 = 0x0#4 then .ok (.wrData (w.extractLsb' 0 8))
        else if w.extractLsb' 8 4 = 0x4#4 then .ok (.wrStatus (w.extractLsb' 0 8))
        else if w.extractLsb' 8 4 = 0x8#4 then .ok (.wrConfig (w.extractLsb' 0 8))
        else .ok (.wrCs (w.extractLsb' 0 8))
      else
        if w.extractLsb' 8 4 = 0x0#4 then .ok .rdData
        else if w.extractLsb' 8 4 = 0x4#4 then .ok .rdStatus
        else if w.extractLsb' 8 4 = 0x8#4 then .ok .rdConfig
        else .ok .rdCs

/-- 30 R75: a word is refused by the decoder exactly when it matches no row of the opcode map. -/
def Obligations.RefusedWordsMatchNoRow : Prop :=
  ∀ w : ReqWord, (∃ c, decode w = .error c) ↔ ∀ i : Instr, w &&& i.tableMask ≠ i.tableMatch

/-- 40 R115 to R117: illegal requests fault by name, first check first, and have no other effect. -/
def Obligations.IllegalRequestsFaultByName : Prop :=
  ∀ (s : State) (w : ReqWord), s.live = true →
    (w.getLsbD 15 = true → runRequest w s = .next (faulted s .malformed w)) ∧
    (w.getLsbD 15 = false → w.extractLsb' 13 2 ≠ 0b00#2 → runRequest w s = .next (faulted s .width w)) ∧
    (w.getLsbD 15 = false → w.extractLsb' 13 2 = 0b00#2 → w.extractLsb' 8 4 ∉ [0x0#4, 0x4#4, 0x8#4, 0xC#4] →
      runRequest w s = .next (faulted s .offset w)) ∧
    (w.getLsbD 15 = false → w.extractLsb' 13 2 = 0b00#2 → w.extractLsb' 8 4 ∈ [0x0#4, 0x4#4, 0x8#4, 0xC#4] →
      w.getLsbD 12 = false → w.extractLsb' 0 8 ≠ 0x00#8 → runRequest w s = .next (faulted s .malformed w))

/-! ## The step -/

/-- A step runs the decoded request: when it is the host's turn and its next turn is a request word that decodes to
`i`, the step is `exec` of `i` with that turn taken off the script and one host turn passed (`popped`; the script and
the count of host turns are the model's own, log entries 2 and 3). A word the decoder refuses takes its fault. After a
failed attach no bus operation exists (20 R51, 45 R211), so the turn is refused (log entry 18). -/
def Obligations.StepRunsTheRequest : Prop :=
  ∀ (s : State) (w : ReqWord) (rest : List HostAct),
    s.live = true → s.engineDue = false → s.script = .bus w :: rest →
    (s.fsm.att ≠ .attachFailed →
      (∀ i, decode w = .ok i → step s = exec i (popped s rest)) ∧
      (∀ c, decode w = .error c → step s = .next (faulted (popped s rest) c w))) ∧
    (s.fsm.att = .attachFailed → step s = .next (refused (popped s rest) .precondition))

/-- A table word placed by `withFetchWord` is the very next thing a live machine runs, even when the engine's step was
due; and the decoder reads the same instruction from it (log entry 2). After a failed attach it is refused, as every bus
operation is (45 R211, log entry 18). -/
def Obligations.PlacedWordRunsNext : Prop :=
  ∀ (s : State) (i : Instr), s.live = true →
    decodeTableWord 16 (encode i).toNat = some i ∧
    (s.fsm.att ≠ .attachFailed →
      step (s.withFetchWord 16 (encode i).toNat) =
        exec i { s with due := if s.engineDue then s.due else s.due.map fun k => k - 1 }) ∧
    (s.fsm.att = .attachFailed →
      step (s.withFetchWord 16 (encode i).toNat) =
        .next (refused { s with due := if s.engineDue then s.due else s.due.map fun k => k - 1 } .precondition))

/-- The host's other turns: each calls the operation of its name, with the turn taken off the script; with no turn
listed the FSM runs on, and waiting for the FSM lasts until it is back in IDLE (00 R7, 30 R82; the script is the model's own, log entry 2). -/
def Obligations.StepTakesTheHostTurn : Prop :=
  ∀ (s : State), s.live = true → s.engineDue = false →
    (s.script = [] → step s = .next (fsmStep (popped s []))) ∧
    (∀ m rest, s.script = .attach m :: rest → step s = .next (callAttach m (popped s rest))) ∧
    (∀ rest, s.script = .configure :: rest → step s = .next (callConfigure (popped s rest))) ∧
    (∀ d rest, s.script = .transferOne d :: rest → step s = .next (callTransferOne d (popped s rest))) ∧
    (∀ a rest, s.script = .setChipSelect a :: rest → step s = .next (callSetChipSelect a (popped s rest))) ∧
    (∀ rest, s.script = .proceed :: rest → step s = .next (fsmStep (popped s rest))) ∧
    (∀ rest, s.script = .await :: rest →
      (s.fsm.pc = .idle → step s = .next (popped s rest)) ∧
      (s.fsm.pc ≠ .idle → step s = .next (fsmStep (popped s s.script))))

/-- 40 R100: in a faulted or refused state nothing steps and the state is not final; a bus operation that faults
changes nothing but `dev.fault` (so it records no event). -/
def Obligations.FaultsStopEverythingAndChangeNothing : Prop :=
  (∀ s : State, (s.dev.fault ≠ none ∨ s.dev.refused = true) →
    (∀ t, step s ≠ .next t) ∧ (∀ i t, exec i s ≠ .next t) ∧ s.final = false) ∧
  (∀ (i : Instr) (s t : State), exec i s = .next t → t.dev.fault ≠ none →
    t = { s with dev := { s.dev with fault := t.dev.fault } } ∧ t.hist = s.hist)

/-- 40 R101: every bus operation that completes records exactly one bus event, with its offset and its byte. -/
def Obligations.OneBusEventPerOperation : Prop :=
  ∀ (i : Instr) (s t : State), exec i s = .next t → t.dev.fault = none →
    ∃ (l : List Event) (r : Byte), adds s t l ∧ l.filter isBusEvent = [opEvent r i]

/-- In a final state (60 R241) with no engine step awaited nothing more happens (the idle step is the model's choice,
log entry 7). -/
def Obligations.FinalStateStays : Prop :=
  ∀ s : State, s.final = true → s.due = none → step s = .next s

/-! ## Reset -/

/-- 10 R34: the device state and the history at reset, and after the event that resets the block. -/
def Obligations.ResetDeviceState : Prop :=
  State.reset.dev.cfg = none ∧ State.reset.dev.cs = none ∧ State.reset.dev.eng = .idle ∧
  State.reset.dev.done = none ∧ State.reset.dev.rx = none ∧ State.reset.dev.fault = none ∧
  State.reset.dev.refused = false ∧ State.reset.hist = [] ∧
  ∀ s : State, (resetBlock s).dev = State.reset.dev ∧ (resetBlock s).hist = []

/-- 10 R35, 00 R8: the FSM at reset is unattached and idle with no handle, the parameters are a legal instantiation,
and host memory lists nothing (log entries 1, 5, 6). -/
def Obligations.ResetFsmAndParameters : Prop :=
  State.reset.fsm.att = .unattached ∧ State.reset.fsm.pc = .idle ∧ State.reset.fsm.handle = none ∧
  State.reset.params.wf = true ∧ State.reset.mem = []

/-- 70 R250, R251: the reset event puts the device and the FSM of any live state into their reset values, and touches
neither host memory nor the host's turns to come nor the parameters. -/
def Obligations.ResetEventRestoresReset : Prop :=
  ∀ (s : State) (rest : List HostAct), s.live = true → s.engineDue = false → s.script = .reset :: rest →
    ∃ t, step s = .next t ∧ t.dev = State.reset.dev ∧ t.fsm = State.reset.fsm ∧ t.hist = [] ∧
      t.script = rest ∧ t.params = s.params ∧ ∀ a, Memory.read t.mem a = Memory.read s.mem a

/-- The invariant holds at reset. -/
def Obligations.InvariantAtReset : Prop := State.reset.Inv

/-! ## The bus operations -/

/-- 40 R102: WR_DATA. -/
def Obligations.WrDataStartsExchangeOrFaults : Prop :=
  ∀ (s : State) (v : Byte), s.live = true →
    ((∃ b, s.dev.eng = .busy b) →
      exec (.wrData v) s = .next (faulted s .dataWrBusy (writeWord 0x1000#16 v))) ∧
    (s.dev.eng = .idle → ¬ configured s →
      exec (.wrData v) s = .next (faulted s .notConfigured (writeWord 0x1000#16 v))) ∧
    (s.dev.eng = .idle → configured s →
      ∃ t, exec (.wrData v) s = .next t ∧
        t.dev = { s.dev with eng := .busy v, done := some false } ∧
        adds s t [.busW 0x0#4 v, .xStart v s.dev.cs] ∧ hostSame s t)

/-- 40 R104: RD_DATA. The draw is a free value: the statement holds for every value of it. -/
def Obligations.RdDataReturnsReceivedByteOrFaults : Prop :=
  ∀ s : State, s.live = true →
    ((∃ b, s.dev.eng = .busy b) → exec .rdData s = .next (faulted s .dataRdBusy 0x0000#16)) ∧
    (s.dev.eng = .idle →
      ∃ t r, exec .rdData s = .next t ∧
        (∀ x, s.dev.done = some true → s.dev.rx = some x → r = x) ∧
        ((s.dev.done ≠ some true ∨ s.dev.rx = none) → r = Config.draw s.draws ∧ t.draws = s.draws + 1) ∧
        t.dev = { s.dev with done := if s.params.doneClearedByDataRead then some false else s.dev.done } ∧
        adds s t [.busR 0x0#4 r] ∧ hostSame s t)

/-- 40 R106: RD_STATUS. Every bit but DONE, and DONE while it is unknown, is a free value. -/
def Obligations.RdStatusReadsDone : Prop :=
  ∀ s : State, s.live = true →
    ∃ t r, exec .rdStatus s = .next t ∧
      (∀ d, s.dev.done = some d →
        r.getLsbD s.params.statusDoneBit.val = d ∧ t.draws = s.draws + 1 ∧
        ∀ k, k < 8 → k ≠ s.params.statusDoneBit.val → r.getLsbD k = (Config.draw s.draws).getLsbD k) ∧
      (s.dev.done = none →
        r.getLsbD s.params.statusDoneBit.val = (Config.draw s.draws).getLsbD 0 ∧ t.draws = s.draws + 2 ∧
        ∀ k, k < 8 → k ≠ s.params.statusDoneBit.val → r.getLsbD k = (Config.draw (s.draws + 1)).getLsbD k) ∧
      t.dev = s.dev ∧ adds s t [.busR 0x4#4 r] ∧ hostSame s t

/-- 40 R108: WR_STATUS always takes the fault F_STATUS_WR. -/
def Obligations.WrStatusAlwaysFaults : Prop :=
  ∀ (s : State) (v : Byte), s.live = true →
    exec (.wrStatus v) s = .next (faulted s .statusWr (writeWord 0x1400#16 v))

/-- 40 R110: WR_CONFIG. -/
def Obligations.WrConfigStoresOrFaults : Prop :=
  ∀ (s : State) (v : Byte), s.live = true →
    ((∃ b, s.dev.eng = .busy b) →
      exec (.wrConfig v) s = .next (faulted s .cfgBusy (writeWord 0x1800#16 v))) ∧
    (s.dev.eng = .idle → cfgRsvd s.params v ≠ 0x00#8 →
      exec (.wrConfig v) s = .next (faulted s .cfgReserved (writeWord 0x1800#16 v))) ∧
    (s.dev.eng = .idle → cfgRsvd s.params v = 0x00#8 → cfgSpeed s.params v ≠ s.params.speedFastest →
      exec (.wrConfig v) s = .next (faulted s .cfgSpeed (writeWord 0x1800#16 v))) ∧
    (s.dev.eng = .idle → cfgRsvd s.params v = 0x00#8 → cfgSpeed s.params v = s.params.speedFastest →
      ∃ t, exec (.wrConfig v) s = .next t ∧ t.dev = { s.dev with cfg := some v } ∧
        adds s t [.busW 0x8#4 v] ∧ hostSame s t)

/-- 40 R111: RD_CONFIG returns a draw, whatever CONFIG holds. -/
def Obligations.RdConfigReturnsDraw : Prop :=
  ∀ s : State, s.live = true →
    ∃ t, exec .rdConfig s = .next t ∧ t.dev = s.dev ∧ t.draws = s.draws + 1 ∧
      adds s t [.busR 0x8#4 (Config.draw s.draws)] ∧ hostSame s t

/-- 40 R112: WR_CS. -/
def Obligations.WrCsDrivesLineOrFaults : Prop :=
  ∀ (s : State) (v : Byte), s.live = true →
    ((∃ b, s.dev.eng = .busy b) → exec (.wrCs v) s = .next (faulted s .csBusy (writeWord 0x1C00#16 v))) ∧
    (s.dev.eng = .idle → v ≠ 0x00#8 → v ≠ 0x01#8 →
      exec (.wrCs v) s = .next (faulted s .csValue (writeWord 0x1C00#16 v))) ∧
    (s.dev.eng = .idle → (v = 0x00#8 ∨ v = 0x01#8) →
      ∃ t, exec (.wrCs v) s = .next t ∧
        t.dev = { s.dev with cs := some (if v = 0x01#8 then .high else .low) } ∧
        adds s t [.busW 0xC#4 v] ∧ hostSame s t)

/-- 40 R113: RD_CS returns a draw, whatever CS holds. -/
def Obligations.RdCsReturnsDraw : Prop :=
  ∀ s : State, s.live = true →
    ∃ t, exec .rdCs s = .next t ∧ t.dev = s.dev ∧ t.draws = s.draws + 1 ∧
      adds s t [.busR 0xC#4 (Config.draw s.draws)] ∧ hostSame s t

/-- The frame of all eight bus operations: what none of them changes, and the only one that may change each device
field (20 R52, R56, 10 R26). -/
def Obligations.FrameOfBusOperations : Prop :=
  ∀ (i : Instr) (s t : State), exec i s = .next t →
    hostSame s t ∧ t.dev.rx = s.dev.rx ∧ t.dev.refusal = s.dev.refusal ∧
    ((∀ v, i ≠ .wrConfig v) → t.dev.cfg = s.dev.cfg) ∧
    ((∀ v, i ≠ .wrCs v) → t.dev.cs = s.dev.cs) ∧
    ((∀ v, i ≠ .wrData v) → t.dev.eng = s.dev.eng ∧ t.due = s.due) ∧
    ((∀ v, i ≠ .wrData v) → i ≠ .rdData → t.dev.done = s.dev.done)

/-! ## CONFIG's fields and the line -/

/-- 30 R78, 10 R29: EN, MASTER, SPEED and the reserved bits of a CONFIG value, bit by bit, and the startup value. -/
def Obligations.ConfigFieldsBitByBit : Prop :=
  ∀ (P : Params) (v : Byte),
    cfgEn P v = v.getLsbD P.enBit.val ∧ cfgMaster P v = v.getLsbD P.masterBit.val ∧
    (∀ k, k < 2 → (cfgSpeed P v).getLsbD k = v.getLsbD (P.speedLsb.val + k)) ∧
    (∀ k, k < 8 →
      (cfgRsvd P v).getLsbD k =
        (v.getLsbD k && !(k == P.enBit.val || k == P.masterBit.val || k == P.speedLsb.val || k == P.speedLsb.val + 1))) ∧
    configInit P = 1#8 <<< P.enBit.val ||| 1#8 <<< P.masterBit.val ||| P.speedFastest.setWidth 8 <<< P.speedLsb.val

/-- 00 R9: `CONFIG_INIT` is the OR of its three fields; at the reference values it is 0x03; and under every legal
instantiation it has EN and MASTER set, the fastest speed and no reserved bit, so that WR_CONFIG accepts it (42 R160). -/
def Obligations.ConfigInitIsAcceptedAlways : Prop :=
  (∀ P : Params,
    configInit P =
      (1#8 <<< P.enBit.val) ||| (1#8 <<< P.masterBit.val) ||| (P.speedFastest.setWidth 8 <<< P.speedLsb.val)) ∧
  configInit Params.reference = 0x03#8 ∧
  (∀ P : Params, P.wf = true →
    cfgEn P (configInit P) = true ∧ cfgMaster P (configInit P) = true ∧
    cfgSpeed P (configInit P) = P.speedFastest ∧ cfgRsvd P (configInit P) = 0x00#8)

/-- 10 R25: whether the chip-select is asserted, and that it is unknown while no level is. -/
def Obligations.CsAssertedFollowsActiveLevel : Prop :=
  ∀ (P : Params) (d : Device),
    (csAsserted P d = some true ↔
      (d.cs = some .high ∧ P.csActiveLevel = .high) ∨ (d.cs = some .low ∧ P.csActiveLevel = .low)) ∧
    (csAsserted P d = none ↔ d.cs = none)

/-- 41 R145: the line's level does not gate an exchange: with any level in its place the write starts one and the
engine completes it, and the level is recorded in both events and passed to the peer. -/
def Obligations.ChipSelectDoesNotGate : Prop :=
  (∀ (s t : State) (v : Byte) (c : Option Level), exec (.wrData v) s = .next t → t.dev.fault = none →
    ∃ u, exec (.wrData v) { s with dev := { s.dev with cs := c } } = .next u ∧ u.dev.fault = none ∧
      u.dev.eng = .busy v ∧ u.dev.cs = c ∧ adds s u [.busW 0x0#4 v, .xStart v c]) ∧
  (∀ (p : Peer) (s : State) (b : Byte), s.dev.eng = .busy b →
    ∃ r ch, r = p s.hist b s.dev.cs ch ∧
      (engineCompleteWith p s).dev.eng = .idle ∧ (engineCompleteWith p s).dev.rx = some r ∧
      (engineCompleteWith p s).dev.cs = s.dev.cs ∧
      adds s (engineCompleteWith p s) [.xEnd b r s.dev.cs])

/-! ## The engine -/

/-- 41 R141, R143: the engine's step, with the peer's answer a free value, and what it leaves alone. -/
def Obligations.EngineCompletesExchange : Prop :=
  (∀ (s : State) (b : Byte), s.live = true → s.dev.eng = .busy b → s.due = some 0 →
    ∃ u r, step s = .next u ∧ r = Config.peer s.hist b s.dev.cs s.draws ∧
      u.dev = { s.dev with eng := .idle, done := some true, rx := some r } ∧
      adds s u [.xEnd b r s.dev.cs] ∧ hostSame s u) ∧
  (∀ (p : Peer) (s : State), s.dev.eng = .idle → engineCompleteWith p s = s)

/-- 10 R24: an exchange in flight means DONE clear; at reset, over every step, and nothing but the engine's step (and a
reset of the block) writes either while an exchange is in flight. -/
def Obligations.BusyMeansDoneClear : Prop :=
  State.reset.dev.busyClear = true ∧
  (∀ s t : State, step s = .next t → s.dev.busyClear = true → t.dev.busyClear = true) ∧
  (∀ s t : State, ∀ b, step s = .next t → s.dev.eng = .busy b → s.engineDue = false →
    s.script.head? ≠ some .reset → t.dev.eng = .busy b ∧ t.dev.done = s.dev.done)

/-- 41 R142: no bus operation ends an exchange: each leaves it in flight, and a write of DATA, CONFIG or CS or a read of
DATA faults. -/
def Obligations.NoOperationCancelsAnExchange : Prop :=
  ∀ (i : Instr) (s t : State) (b : Byte), exec i s = .next t → s.dev.eng = .busy b →
    t.dev.eng = .busy b ∧
    (∀ v, i = .wrData v → t.dev.fault = some ⟨.dataWrBusy, encode i⟩) ∧
    (∀ v, i = .wrConfig v → t.dev.fault = some ⟨.cfgBusy, encode i⟩) ∧
    (∀ v, i = .wrCs v → t.dev.fault = some ⟨.csBusy, encode i⟩) ∧
    (i = .rdData → t.dev.fault = some ⟨.dataRdBusy, encode i⟩)

/-- 70 R255 (hazard H2): a STATUS read placed after an accepted DATA write reads DONE = 0, whatever it read before. -/
def Obligations.PollAfterWriteSeesClear : Prop :=
  ∀ (s t : State) (v : Byte), exec (.wrData v) s = .next t → t.dev.fault = none →
    ∃ u r, exec .rdStatus t = .next u ∧ adds t u [.busR 0x4#4 r] ∧
      r.getLsbD s.params.statusDoneBit.val = false

/-- 41 R141, 40 R104, R106: after the engine's step, with any peer, STATUS reads DONE = 1 and DATA reads the peer's
byte. -/
def Obligations.CompletedExchangeDeliversPeerByte : Prop :=
  ∀ (p : Peer) (s : State) (b : Byte), s.live = true → s.dev.eng = .busy b →
    ∃ t u v, exec .rdStatus (engineCompleteWith p s) = .next t ∧ exec .rdData t = .next u ∧
      v.getLsbD s.params.statusDoneBit.val = true ∧
      adds s u [.xEnd b (p s.hist b s.dev.cs s.draws) s.dev.cs, .busR 0x4#4 v,
        .busR 0x0#4 (p s.hist b s.dev.cs s.draws)]

/-- 40 R104: repeated DATA reads agree while a read does not clear DONE; where it does, the second read is a draw and
STATUS reads DONE = 0 after the first (V2.10 to V2.13). -/
def Obligations.RepeatedDataReads : Prop :=
  ∀ (s : State) (x : Byte), s.live = true → s.dev.eng = .idle → s.dev.done = some true → s.dev.rx = some x →
    ∃ t u, exec .rdData s = .next t ∧ exec .rdData t = .next u ∧
      (s.params.doneClearedByDataRead = false → adds s u [.busR 0x0#4 x, .busR 0x0#4 x]) ∧
      (s.params.doneClearedByDataRead = true →
        adds s u [.busR 0x0#4 x, .busR 0x0#4 (Config.draw s.draws)] ∧ t.dev.done = some false)

/-! ## Calls: configure, attach, chip-select -/

/-- 42 R160, R161: a call of `configure` writes CONFIG once and marks it, given its precondition; otherwise it is refused
and issues nothing. That a direct call is checked against the Device Handle is the model's choice (log entry 13). -/
def Obligations.ConfigureWritesOnceOrIsRefused : Prop :=
  ∀ s : State,
    (s.fsm.att = .unattached → s.fsm.handle ≠ none → s.dev.eng = .idle → s.params.wf = true →
      (callConfigure s).dev = { s.dev with cfg := some (configInit s.params) } ∧
      adds s (callConfigure s) [.busW 0x8#4 (configInit s.params), .cfgDone] ∧
      hostSame s (callConfigure s)) ∧
    ((s.fsm.att ≠ .unattached ∨ s.fsm.handle = none) → callConfigure s = refused s .precondition)

/-- 45 R210: `attach`, with a valid mapping (20 R51) and with none. -/
def Obligations.AttachConfiguresAndRegisters : Prop :=
  ∀ s : State,
    (∀ m, s.fsm.att ≠ .unattached → callAttach m s = refused s .precondition) ∧
    (s.fsm.att = .unattached →
      callAttach none s =
        { s with hist := s.hist ++ [.attachFail], fsm := { s.fsm with att := .attachFailed } }) ∧
    (∀ base, s.fsm.att = .unattached → base + 15 < 2 ^ s.params.addrW → s.dev.eng = .idle → s.params.wf = true →
      adds s (callAttach (some base) s) [.busW 0x8#4 (configInit s.params), .cfgDone, .registered Config.caps] ∧
      (callAttach (some base) s).dev = { s.dev with cfg := some (configInit s.params) } ∧
      (callAttach (some base) s).fsm =
        { s.fsm with
          att := .attached
          pc := .idle
          handle := some ⟨base + 0, base + 4, base + 8, base + 12⟩ } ∧
      ∀ a, Memory.read (callAttach (some base) s).mem a = Memory.read s.mem a)

/-- A base whose window would wrap is an invalid mapping, and `attach` aborts as without one; an exchange left in flight
by an earlier load makes attach's CONFIG write fault, with nothing else changed (the model's reading of 20 R51, 60 R227
and R221: log entries 8 and 13). -/
def Obligations.AttachAbortsOrFaults : Prop :=
  ∀ (s : State) (base : Nat), s.fsm.att = .unattached →
    (2 ^ s.params.addrW ≤ base + 15 → callAttach (some base) s = callAttach none s) ∧
    (base + 15 < 2 ^ s.params.addrW → s.dev.fault = none → (∃ b, s.dev.eng = .busy b) →
      callAttach (some base) s = faulted s .cfgBusy (writeWord 0x1800#16 (configInit s.params)))

/-- 45 R211, 20 R51: a failed mapping aborts attach with no bus operation and no handle; after it every call is refused,
and no step issues a bus operation, a raw request word's turn included. -/
def Obligations.FailedAttachRefusesEveryCall : Prop :=
  (∀ s : State, s.fsm.att = .unattached →
    (callAttach none s).fsm = { s.fsm with att := .attachFailed } ∧ (callAttach none s).dev = s.dev ∧
    adds s (callAttach none s) [.attachFail]) ∧
  (∀ s : State, s.fsm.att = .attachFailed →
    (∀ m, callAttach m s = refused s .precondition) ∧ (∀ d, callTransferOne d s = refused s .precondition) ∧
    (∀ a, callSetChipSelect a s = refused s .precondition) ∧ callConfigure s = refused s .precondition) ∧
  (∀ s t : State, s.fsm.att = .attachFailed → s.fsm.pc = .idle → s.script.head? ≠ some .reset → step s = .next t →
    ∃ l, adds s t l ∧ l.filter isBusEvent = [])

/-- 45 R217, 44 R205: a reload starts a new launch of the FSM and keeps the device, the line's level included; an attach
after it is accepted again. 45 R215: while a transfer is in progress it runs on, and the Device Handle is kept (log entry
11). -/
def Obligations.ReloadKeepsTheDevice : Prop :=
  ∀ (s : State) (rest : List HostAct), s.live = true → s.engineDue = false → s.script = .reload :: rest →
    (s.fsm.pc = .idle →
      ∃ t, step s = .next t ∧ t.dev = s.dev ∧ t.hist = s.hist ∧ t.fsm = State.reset.fsm ∧ t.script = rest ∧
        (∀ a, Memory.read t.mem a = Memory.read s.mem a) ∧
        (∀ base, base + 15 < 2 ^ s.params.addrW → s.dev.eng = .idle → s.params.wf = true →
          (callAttach (some base) t).fsm.att = .attached ∧ (callAttach (some base) t).dev.cs = s.dev.cs)) ∧
    (s.fsm.pc ≠ .idle →
      ∃ t, step s = .next t ∧ t = fsmStep (popped s s.script) ∧ t.fsm.handle = s.fsm.handle ∧ t.script = s.script)

/-- 44 R200: `set_chip_select`. -/
def Obligations.SetChipSelectWritesCs : Prop :=
  ∀ (s : State) (active : Bool),
    (s.fsm.att ≠ .attached → callSetChipSelect active s = refused s .precondition) ∧
    (s.fsm.att = .attached → s.fsm.pc ≠ .idle → callSetChipSelect active s = refused s .reentrant) ∧
    (s.fsm.att = .attached → s.fsm.pc = .idle → s.dev.fault = none → (∃ b, s.dev.eng = .busy b) →
      callSetChipSelect active s = faulted s .csBusy (writeWord 0x1C00#16 (if active then 0x01#8 else 0x00#8))) ∧
    (s.fsm.att = .attached → s.fsm.pc = .idle → s.dev.eng = .idle →
      (callSetChipSelect active s).dev = { s.dev with cs := some (if active then .high else .low) } ∧
      adds s (callSetChipSelect active s) [.busW 0xC#4 (if active then 0x01#8 else 0x00#8)] ∧
      hostSame s (callSetChipSelect active s))

/-! ## The register protocol FSM -/

/-- 43 R170: entering a transfer. That the index is kept within the new length is the model's reading of its range in 10
R32 (log entry 20). -/
def Obligations.TransferOneEntersCheck : Prop :=
  ∀ (s : State) (d : Descriptor),
    (s.fsm.att ≠ .attached → callTransferOne d s = refused s .precondition) ∧
    (s.fsm.att = .attached → s.fsm.pc ≠ .idle → callTransferOne d s = refused s .reentrant) ∧
    (s.fsm.att = .attached → s.fsm.pc = .idle →
      callTransferOne d s =
        { s with
          fsm := { s.fsm with bpw := d.bpw, len := d.len, tx := d.tx, rx := d.rx, i := min s.fsm.i d.len, pc := .check } })

/-- 43 R171, R172: CHECK. -/
def Obligations.CheckValidatesTheDescriptor : Prop :=
  ∀ s : State,
    (((∃ a, s.fsm.tx = some a ∧ a.len ≠ s.fsm.len) ∨ (∃ a, s.fsm.rx = some a ∧ a.len ≠ s.fsm.len)) →
      fsmCheck s = refused s .desc) ∧
    ((∀ a, s.fsm.tx = some a → a.len = s.fsm.len) → (∀ a, s.fsm.rx = some a → a.len = s.fsm.len) →
      (s.fsm.bpw ≠ 8 →
        fsmCheck s =
          { s with hist := s.hist ++ [.log .eConfig], fsm := { s.fsm with ret := 0, pc := .finish } }) ∧
      (s.fsm.bpw = 8 →
        fsmCheck s =
          { s with
            fsm := { s.fsm with
                     i := 0
                     ret := s.fsm.len
                     pc := if s.fsm.len = 0 then .finish else .emit } }))

/-- 43 R173: EMIT writes the source byte, or 0xFF without a source buffer, to DATA and goes to POLL. That a fault inside
EMIT leaves `fsm.b` as it was is the model's reading of 60 R221 (log entry 8). -/
def Obligations.EmitWritesSourceOrIdleByte : Prop :=
  ∀ (s : State) (b : Byte),
    ((∃ a, s.fsm.tx = some a ∧ b = Memory.read s.mem (a.base + s.fsm.i)) ∨ (s.fsm.tx = none ∧ b = 0xFF#8)) →
    (s.dev.eng = .idle → configured s →
      (fsmEmit s).dev = { s.dev with eng := .busy b, done := some false } ∧
      adds s (fsmEmit s) [.busW 0x0#4 b, .xStart b s.dev.cs] ∧
      (fsmEmit s).fsm = { s.fsm with b := b, polls := 0, pc := .poll } ∧
      (fsmEmit s).params = s.params ∧ (fsmEmit s).script = s.script ∧
      ∀ a, Memory.read (fsmEmit s).mem a = Memory.read s.mem a) ∧
    (s.dev.fault = none → (∃ t, s.dev.eng = .busy t) → fsmEmit s = faulted s .dataWrBusy (writeWord 0x1000#16 b)) ∧
    (s.dev.fault = none → s.dev.eng = .idle → ¬ configured s →
      fsmEmit s = faulted s .notConfigured (writeWord 0x1000#16 b))

/-- 43 R174: POLL reads STATUS once and follows its DONE bit; every read of 0 counts, and with a limit POLL gives up after
that many. -/
def Obligations.PollFollowsTheDoneBit : Prop :=
  ∀ s : State, ∃ v : Byte,
    (∀ d, s.dev.done = some d → v.getLsbD s.params.statusDoneBit.val = d) ∧
    (fsmPoll s).dev = s.dev ∧ (fsmPoll s).params = s.params ∧ (fsmPoll s).script = s.script ∧
    (∀ a, Memory.read (fsmPoll s).mem a = Memory.read s.mem a) ∧
    (v.getLsbD s.params.statusDoneBit.val = true →
      adds s (fsmPoll s) [.busR 0x4#4 v] ∧ (fsmPoll s).fsm = { s.fsm with pc := .read }) ∧
    (v.getLsbD s.params.statusDoneBit.val = false →
      (∀ n, s.params.pollLimit = some n → n ≤ s.fsm.polls + 1 →
        adds s (fsmPoll s) [.busR 0x4#4 v, .log .eNonResponse] ∧
        (fsmPoll s).fsm = { s.fsm with polls := s.fsm.polls + 1, ret := s.fsm.i, pc := .finish }) ∧
      ((s.params.pollLimit = none ∨ ∃ n, s.params.pollLimit = some n ∧ s.fsm.polls + 1 < n) →
        adds s (fsmPoll s) [.busR 0x4#4 v] ∧
        (fsmPoll s).fsm = { s.fsm with polls := s.fsm.polls + 1, pc := .poll }))

/-- 43 R175: READ reads DATA and goes to STORE; after a poll that saw DONE it gets the received byte. -/
def Obligations.ReadTakesTheReceivedByte : Prop :=
  ∀ s : State,
    (s.dev.fault = none → (∃ b, s.dev.eng = .busy b) → fsmRead s = faulted s .dataRdBusy 0x0000#16) ∧
    (s.dev.eng = .idle →
      ∃ r : Byte,
        adds s (fsmRead s) [.busR 0x0#4 r] ∧ (fsmRead s).fsm = { s.fsm with r := r, pc := .store } ∧
        (∀ x, s.dev.done = some true → s.dev.rx = some x → r = x) ∧
        (fsmRead s).dev =
          { s.dev with done := if s.params.doneClearedByDataRead then some false else s.dev.done } ∧
        (fsmRead s).params = s.params ∧ (fsmRead s).script = s.script ∧
        ∀ a, Memory.read (fsmRead s).mem a = Memory.read s.mem a)

/-- 43 R176: STORE keeps the byte at `rx + i` or discards it, and advances; no other byte of host memory changes. -/
def Obligations.StoreKeepsOrDiscards : Prop :=
  ∀ s : State,
    (fsmStore s).fsm =
      { s.fsm with i := s.fsm.i + 1, pc := if s.fsm.i + 1 = s.fsm.len then .finish else .emit } ∧
    (fsmStore s).dev = s.dev ∧ (fsmStore s).hist = s.hist ∧ (fsmStore s).params = s.params ∧
    (fsmStore s).script = s.script ∧
    (s.fsm.rx = none → ∀ a, Memory.read (fsmStore s).mem a = Memory.read s.mem a) ∧
    (∀ b, s.fsm.rx = some b →
      (Memory.wf s.mem = true → Memory.read (fsmStore s).mem (b.base + s.fsm.i) = s.fsm.r) ∧
      ∀ a, a ≠ b.base + s.fsm.i → Memory.read (fsmStore s).mem a = Memory.read s.mem a)

/-- 43 R177: FINISH finalizes once and returns the count. -/
def Obligations.FinishFinalizesOnce : Prop :=
  ∀ s : State,
    fsmFinish s =
      { s with hist := s.hist ++ [.finalize, .ret s.fsm.ret], fsm := { s.fsm with pc := .idle } }

/-- 43 R185: no transition of the FSM writes CS, in the history or on the line. -/
def Obligations.TransferNeverWritesCs : Prop :=
  ∀ s : State, (fsmStep s).dev.cs = s.dev.cs ∧
    ∃ l, adds s (fsmStep s) l ∧ ∀ v, Event.busW 0xC#4 v ∉ l

/-- 43 R186, 60 R225: the whole error path of an unsupported width: a log entry, one finalize, the count 0, no bus
operation, and the driver accepts the next call. -/
def Obligations.UnsupportedWidthTouchesNothing : Prop :=
  ∀ s : State, s.live = true → s.script = [] → s.fsm.att = .attached → s.fsm.pc = .check →
    s.fsm.buffersFit = true → s.fsm.bpw ≠ 8 → s.dev.eng = .idle →
    ∃ u, Host.Core.run Sys2Proof.core 2 s = .next u ∧
      adds s u [.log .eConfig, .finalize, .ret 0] ∧ u.dev = s.dev ∧ u.fsm.pc = .idle ∧
      (∀ a, Memory.read u.mem a = Memory.read s.mem a) ∧ ∀ d, (callTransferOne d u).fsm.pc = .check

/-- 43 R179, R182: one byte from POLL on: with `k` host turns before the engine's step there are exactly `k` reads of
DONE = 0, then the completion, one read of DONE = 1, the DATA read of the peer's byte, and its store. -/
def Obligations.OneByteOfATransfer : Prop :=
  ∀ (s : State) (b : Byte) (k : Nat),
    s.live = true → s.script = [] → s.fsm.pc = .poll → s.dev.eng = .busy b → s.dev.done = some false →
    s.due = some k → (∀ m, s.params.pollLimit = some m → s.fsm.polls + k < m) →
    ∃ (u : State) (zs : List Event) (v r : Byte),
      Host.Core.run Sys2Proof.core (k + 4) s = .next u ∧ zs.length = k ∧ pollsSeeing s.params false zs ∧
      v.getLsbD s.params.statusDoneBit.val = true ∧ r = Config.peer (s.hist ++ zs) b s.dev.cs (s.draws + k) ∧
      adds s u (zs ++ [Event.xEnd b r s.dev.cs, Event.busR 0x4#4 v, Event.busR 0x0#4 r]) ∧
      u.dev.eng = .idle ∧ u.dev.rx = some r ∧ u.fsm.i = s.fsm.i + 1 ∧
      u.fsm.pc = (if s.fsm.i + 1 = s.fsm.len then .finish else .emit) ∧
      (s.fsm.rx = none → u.mem = s.mem) ∧
      (∀ a, s.fsm.rx = some a → u.mem = Memory.write s.mem (a.base + s.fsm.i) r)

/-- 43 R183, 41 R146: a poll without limit of an engine that never completes is a hang: after any number of steps the
FSM is still in POLL, the exchange still in flight, and only reads of DONE = 0 have been added. -/
def Obligations.UnboundedPollOfADeadEngineHangs : Prop :=
  ∀ (s : State) (b : Byte),
    s.live = true → s.script = [] → s.fsm.pc = .poll → s.dev.eng = .busy b → s.dev.done = some false →
    s.due = none → s.params.pollLimit = none →
    ∀ n, ∃ u zs, Host.Core.run Sys2Proof.core n s = .next u ∧ u.fsm.pc = .poll ∧ u.dev.eng = .busy b ∧
      zs.length = n ∧ pollsSeeing s.params false zs ∧ adds s u zs

/-- 43 R174, R178, R184: a poll limit of `m` that runs out before the engine's step: `m` reads of DONE = 0, the log entry,
one finalize and the count of completed bytes; the exchange is still in flight, so the next DATA or CS write faults. -/
def Obligations.TimeoutReturnsCompletedCount : Prop :=
  ∀ (s : State) (b : Byte) (m : Nat),
    s.live = true → s.script = [] → s.fsm.pc = .poll → s.dev.eng = .busy b → s.dev.done = some false →
    s.params.pollLimit = some m → 1 ≤ m → s.fsm.polls = 0 → (∀ k, s.due = some k → m < k) →
    ∃ (u : State) (zs : List Event), Host.Core.run Sys2Proof.core (m + 1) s = .next u ∧ zs.length = m ∧
      pollsSeeing s.params false zs ∧
      adds s u (zs ++ [Event.log .eNonResponse, Event.finalize, Event.ret s.fsm.i]) ∧
      u.fsm.pc = .idle ∧ u.fsm.ret = s.fsm.i ∧ u.dev = s.dev ∧
      (∀ a, Memory.read u.mem a = Memory.read s.mem a) ∧
      (∀ v, exec (.wrData v) u = .next (faulted u .dataWrBusy (writeWord 0x1000#16 v))) ∧
      (∀ v, exec (.wrCs v) u = .next (faulted u .csBusy (writeWord 0x1C00#16 v)))

/-- 43 R178 to R182, 95 S1, S3, S4: a whole transfer of any length, when every exchange completes and the poll is unbounded:
it ends, with one group of bus operations a byte in ascending order, then one finalize and the count `len`; the bytes
sent are the source buffer's (or 0xFF), the bytes stored are the peer's answers, and no other byte of host memory
changes. -/
def Obligations.WholeTransferCompletes : Prop :=
  ∀ s : State,
    s.live = true → s.script = [] → s.fsm.pc = .check → s.fsm.bpw = 8 → s.fsm.buffersFit = true →
    s.dev.eng = .idle → configured s → s.params.pollLimit = none → s.params.engineCompletes = true →
    Memory.wf s.mem = true →
    ∃ (n : Nat) (u : State) (xs : List (Byte × Byte)) (l : List Event),
      Host.Core.run Sys2Proof.core n s = .next u ∧ xs.length = s.fsm.len ∧
      groupTrace s.params s.dev.cs xs l ∧ adds s u (l ++ [Event.finalize, Event.ret s.fsm.len]) ∧
      u.fsm.pc = .idle ∧ u.fsm.ret = s.fsm.len ∧ u.dev.eng = .idle ∧ u.dev.cs = s.dev.cs ∧
      (s.fsm.tx = none → ∀ x ∈ xs, x.1 = 0xFF#8) ∧
      (∀ a, s.fsm.tx = some a → noOverrun s.fsm →
        ∀ i, i < s.fsm.len → (xs[i]?).map Prod.fst = some (Memory.read s.mem (a.base + i))) ∧
      (s.fsm.rx = none → ∀ a, Memory.read u.mem a = Memory.read s.mem a) ∧
      (∀ b, s.fsm.rx = some b →
        (∀ i, i < s.fsm.len → (xs[i]?).map Prod.snd = some (Memory.read u.mem (b.base + i))) ∧
        ∀ a, (∀ i, i < s.fsm.len → a ≠ b.base + i) → Memory.read u.mem a = Memory.read s.mem a)

/-! ## The whole machine -/

/-- Every step keeps the invariant: legal parameters, DONE clear while busy, a byte behind DONE, a legal CONFIG value,
the FSM's index in range everywhere, attached outside IDLE, the handle exactly while attached, and the canonical memory. -/
def Obligations.StepKeepsInvariant : Prop :=
  ∀ s t : State, s.Inv → step s = .next t → t.Inv

/-- 10 R31: the history is only appended to, but for a reset of the block (10 R34). -/
def Obligations.HistoryOnlyGrows : Prop :=
  ∀ s t : State, step s = .next t → s.script.head? ≠ some .reset → ∃ l, adds s t l

/-- 20 R52, 43 R176: no step changes a byte of host memory but STORE, at `rx + i`; and no step changes the parameters. -/
def Obligations.OnlyStoreWritesHostMemory : Prop :=
  ∀ s t : State, step s = .next t →
    t.params = s.params ∧
    ∀ a, Memory.read t.mem a ≠ Memory.read s.mem a →
      s.fsm.pc = .store ∧ ∃ b, s.fsm.rx = some b ∧ a = b.base + s.fsm.i

/-- 42 R162: while attached, and driven by the protocol alone, no step writes CONFIG. -/
def Obligations.ConfigWrittenOnlyByConfigure : Prop :=
  ∀ s t : State, step s = .next t → s.protocolOnly = true → s.fsm.att = .attached →
    t.dev.cfg = s.dev.cfg ∧ ∃ l, adds s t l ∧ ∀ v, Event.busW 0x8#4 v ∉ l

/-- 43 R173, R175, 44 R200, 42 R160: driven by the register protocol alone, reloads included, and with the unbounded poll,
the machine is clean at reset (with protocol turns and an unbounded poll placed in it) and every step keeps it clean, so
no fault is ever raised. -/
def Obligations.ProtocolNeverFaults : Prop :=
  (∀ (P : Params) (l : List HostAct), P.wf = true → P.pollLimit = none →
    l.all HostAct.isProtocol = true →
    State.Clean { State.reset with params := P, script := l }) ∧
  (∀ s t : State, s.Clean → step s = .next t → t.Clean)

/-- 95 §2.6, D12: whether a DATA read clears DONE changes nothing the protocol does: from the same state, with only calls
to come, runs under both values of the parameter have the same history, host memory and FSM state. -/
def Obligations.DoneClearingIsInvisibleToTheProtocol : Prop :=
  ∀ (n : Nat) (s t : State) (d : Bool), s.protocolOnly = true →
    Host.Core.run Sys2Proof.core n s = .next t →
    ∃ u : State,
      Host.Core.run Sys2Proof.core n { s with params := { s.params with doneClearedByDataRead := d } } = .next u ∧
      u.hist = t.hist ∧ u.mem = t.mem ∧ u.fsm = t.fsm ∧ u.dev.cs = t.dev.cs ∧ u.dev.cfg = t.dev.cfg ∧
      u.dev.rx = t.dev.rx ∧ u.dev.fault = t.dev.fault

/-- 30 R81: the pseudo-operations' request words, and that `poll` reads STATUS again while DONE reads 0: under every poll
limit, which is the model's choice (log entry 19). After a failed attach it is refused (45 R211, log entry 18). -/
def Obligations.PseudoOperationsExpand : Prop :=
  (∀ (P : Params) (b : Byte),
    expandPseudo P (.xfer b) = [.bus (writeWord 0x1000#16 b), .poll, .bus 0x0000#16] ∧
    expandPseudo P .csOn = [.bus 0x1C01#16] ∧ expandPseudo P .csOff = [.bus 0x1C00#16] ∧
    expandPseudo P .cfgInit = [.bus (writeWord 0x1800#16 (configInit P))]) ∧
  (∀ (s : State) (rest : List HostAct), s.live = true → s.engineDue = false → s.script = .poll :: rest →
    s.fsm.att = .attachFailed → step s = .next (refused (popped s rest) .precondition)) ∧
  (∀ (s : State) (rest : List HostAct) (d : Bool), s.live = true → s.engineDue = false →
    s.script = .poll :: rest → s.fsm.att ≠ .attachFailed → s.dev.done = some d →
    ∃ t v, step s = .next t ∧ adds s t [.busR 0x4#4 v] ∧ v.getLsbD s.params.statusDoneBit.val = d ∧
      t.script = (if d then rest else s.script) ∧ t.dev = s.dev)
end

