-- ==== Sys2Proof/Laws/Memory.lean ====
section
/-! SUPPORT. Host memory: a read after a write, and that a write keeps the canonical form. -/

namespace Sys2Proof.Machine

/-- Reading a memory with a cell put before it. -/
theorem Memory.read_cons (a : Nat) (v : Byte) (m : List Host.Cell) (b : Nat) :
    Memory.read (Memory.cons a v m) b =
      if v = Memory.blank then Memory.read m b else if b = a then v else Memory.read m b := by
  unfold Memory.cons
  split <;> rfl

/-- A write leaves every other address as it was. -/
theorem Memory.read_write_other (m : List Host.Cell) {a b : Nat} (v : Byte) (h : b ≠ a) :
    Memory.read (Memory.write m a v) b = Memory.read m b := by
  induction m with
  | nil => simp [Memory.write, Memory.read_cons, h]
  | cons c m ih =>
    obtain ⟨k, w⟩ := c
    by_cases h1 : a < k
    · simp [Memory.write, Memory.read_cons, h1, h]
    · by_cases h2 : a = k
      · subst h2
        simp [Memory.write, Memory.read_cons, Memory.read, h]
      · simp [Memory.write, Memory.read, h1, h2, ih]

/-- Lying above a memory with a first cell. -/
theorem Memory.above_cons (a k : Nat) (w : Byte) (m : List Host.Cell) :
    Memory.above a ((k, w) :: m) = true ↔ a < k ∧ Memory.above a m = true := by
  simp [Memory.above]

/-- The canonical form of a memory with a first cell. -/
theorem Memory.wf_cons (k : Nat) (w : Byte) (m : List Host.Cell) :
    Memory.wf ((k, w) :: m) = true ↔ w ≠ Memory.blank ∧ Memory.above k m = true ∧ Memory.wf m = true := by
  simp [Memory.wf, and_assoc]

/-- An address that all listed addresses lie above reads as blank. -/
theorem Memory.read_of_above {a : Nat} {m : List Host.Cell} (h : Memory.above a m = true) :
    Memory.read m a = Memory.blank := by
  induction m with
  | nil => rfl
  | cons c m ih =>
    obtain ⟨k, w⟩ := c
    rw [Memory.above_cons] at h
    rw [Memory.read, if_neg (by omega), ih h.2]

/-- Lying above is inherited by smaller addresses. -/
theorem Memory.above_mono {a b : Nat} {m : List Host.Cell} (hab : a ≤ b) (h : Memory.above b m = true) :
    Memory.above a m = true := by
  simp only [Memory.above, List.all_eq_true, decide_eq_true_eq] at h ⊢
  intro c hc
  exact Nat.lt_of_le_of_lt hab (h c hc)

/-- Putting a cell before a memory keeps what both lie above. -/
theorem Memory.above_put {k a : Nat} (v : Byte) {m : List Host.Cell} (hka : k < a) (h : Memory.above k m = true) :
    Memory.above k (Memory.cons a v m) = true := by
  unfold Memory.cons
  split
  · exact h
  · exact (Memory.above_cons k a v m).2 ⟨hka, h⟩

/-- What a write lists lies above whatever both the memory and the written address lie above. -/
theorem Memory.above_write {k a : Nat} {m : List Host.Cell} (v : Byte) (hka : k < a) (h : Memory.above k m = true) :
    Memory.above k (Memory.write m a v) = true := by
  induction m with
  | nil => exact Memory.above_put v hka h
  | cons c m ih =>
    obtain ⟨j, w⟩ := c
    have hm := (Memory.above_cons k j w m).1 h
    unfold Memory.write
    split
    · exact Memory.above_put v hka h
    · split
      · exact Memory.above_put v hka hm.2
      · exact (Memory.above_cons k j w _).2 ⟨hm.1, ih hm.2⟩

/-- Putting a cell before a canonical memory that lies above it gives a canonical memory. -/
theorem Memory.wf_put {a : Nat} (v : Byte) {m : List Host.Cell} (ha : Memory.above a m = true)
    (h : Memory.wf m = true) : Memory.wf (Memory.cons a v m) = true := by
  unfold Memory.cons
  split
  · exact h
  · next hv => exact (Memory.wf_cons a v m).2 ⟨hv, ha, h⟩

/-- Every write keeps the canonical form. -/
theorem Memory.wf_write {m : List Host.Cell} (a : Nat) (v : Byte) (h : Memory.wf m = true) :
    Memory.wf (Memory.write m a v) = true := by
  induction m with
  | nil => exact Memory.wf_put v rfl rfl
  | cons c m ih =>
    obtain ⟨k, w⟩ := c
    obtain ⟨hw, hab, hm⟩ := (Memory.wf_cons k w m).1 h
    unfold Memory.write
    split
    · next h1 => exact Memory.wf_put v ((Memory.above_cons a k w m).2 ⟨h1, Memory.above_mono (Nat.le_of_lt h1) hab⟩) h
    · split
      · next h2 => exact Memory.wf_put v (h2 ▸ hab) hm
      · next h1 h2 => exact (Memory.wf_cons k w _).2 ⟨hw, Memory.above_write v (by omega) hab, ih hm⟩

/-- In a canonical memory a write is read back. -/
theorem Memory.read_write_same {m : List Host.Cell} (a : Nat) (v : Byte) (h : Memory.wf m = true) :
    Memory.read (Memory.write m a v) a = v := by
  have put (n : List Host.Cell) (hn : Memory.above a n = true) : Memory.read (Memory.cons a v n) a = v := by
    rw [Memory.read_cons]
    split
    · next hv => rw [Memory.read_of_above hn, hv]
    · simp
  induction m with
  | nil => exact put [] rfl
  | cons c m ih =>
    obtain ⟨k, w⟩ := c
    obtain ⟨hw, hab, hm⟩ := (Memory.wf_cons k w m).1 h
    unfold Memory.write
    split
    · next h1 => exact put _ ((Memory.above_cons a k w m).2 ⟨h1, Memory.above_mono (Nat.le_of_lt h1) hab⟩)
    · split
      · next h2 => exact put _ (h2 ▸ hab)
      · next h2 => rw [Memory.read, if_neg h2, ih hm]

end Sys2Proof.Machine
end

