-- ==== Sys2Proof/Laws/State.lean ====
section
/-! SUPPORT. One lemma per field per update of State and of Device, each true by rfl, so that no later proof unfolds a
record update. -/

namespace Sys2Proof.Machine

variable (s : State)

@[simp] theorem emit_params (e : Event) : (s.emit e).params = s.params := rfl
@[simp] theorem emit_dev (e : Event) : (s.emit e).dev = s.dev := rfl
@[simp] theorem emit_hist (e : Event) : (s.emit e).hist = s.hist ++ [e] := rfl
@[simp] theorem emit_fsm (e : Event) : (s.emit e).fsm = s.fsm := rfl
@[simp] theorem emit_mem (e : Event) : (s.emit e).mem = s.mem := rfl
@[simp] theorem emit_script (e : Event) : (s.emit e).script = s.script := rfl
@[simp] theorem emit_due (e : Event) : (s.emit e).due = s.due := rfl
@[simp] theorem emit_draws (e : Event) : (s.emit e).draws = s.draws := rfl

@[simp] theorem setDev_params (d : Device) : (s.setDev d).params = s.params := rfl
@[simp] theorem setDev_dev (d : Device) : (s.setDev d).dev = d := rfl
@[simp] theorem setDev_hist (d : Device) : (s.setDev d).hist = s.hist := rfl
@[simp] theorem setDev_fsm (d : Device) : (s.setDev d).fsm = s.fsm := rfl
@[simp] theorem setDev_mem (d : Device) : (s.setDev d).mem = s.mem := rfl
@[simp] theorem setDev_script (d : Device) : (s.setDev d).script = s.script := rfl
@[simp] theorem setDev_due (d : Device) : (s.setDev d).due = s.due := rfl
@[simp] theorem setDev_draws (d : Device) : (s.setDev d).draws = s.draws := rfl

@[simp] theorem setFsm_params (f : Fsm) : (s.setFsm f).params = s.params := rfl
@[simp] theorem setFsm_dev (f : Fsm) : (s.setFsm f).dev = s.dev := rfl
@[simp] theorem setFsm_hist (f : Fsm) : (s.setFsm f).hist = s.hist := rfl
@[simp] theorem setFsm_fsm (f : Fsm) : (s.setFsm f).fsm = f := rfl
@[simp] theorem setFsm_mem (f : Fsm) : (s.setFsm f).mem = s.mem := rfl
@[simp] theorem setFsm_script (f : Fsm) : (s.setFsm f).script = s.script := rfl
@[simp] theorem setFsm_due (f : Fsm) : (s.setFsm f).due = s.due := rfl
@[simp] theorem setFsm_draws (f : Fsm) : (s.setFsm f).draws = s.draws := rfl

@[simp] theorem setMem_params (m : List Host.Cell) : (s.setMem m).params = s.params := rfl
@[simp] theorem setMem_dev (m : List Host.Cell) : (s.setMem m).dev = s.dev := rfl
@[simp] theorem setMem_hist (m : List Host.Cell) : (s.setMem m).hist = s.hist := rfl
@[simp] theorem setMem_fsm (m : List Host.Cell) : (s.setMem m).fsm = s.fsm := rfl
@[simp] theorem setMem_mem (m : List Host.Cell) : (s.setMem m).mem = m := rfl
@[simp] theorem setMem_script (m : List Host.Cell) : (s.setMem m).script = s.script := rfl
@[simp] theorem setMem_due (m : List Host.Cell) : (s.setMem m).due = s.due := rfl
@[simp] theorem setMem_draws (m : List Host.Cell) : (s.setMem m).draws = s.draws := rfl

@[simp] theorem setScript_params (l : List HostAct) : (s.setScript l).params = s.params := rfl
@[simp] theorem setScript_dev (l : List HostAct) : (s.setScript l).dev = s.dev := rfl
@[simp] theorem setScript_hist (l : List HostAct) : (s.setScript l).hist = s.hist := rfl
@[simp] theorem setScript_fsm (l : List HostAct) : (s.setScript l).fsm = s.fsm := rfl
@[simp] theorem setScript_mem (l : List HostAct) : (s.setScript l).mem = s.mem := rfl
@[simp] theorem setScript_script (l : List HostAct) : (s.setScript l).script = l := rfl
@[simp] theorem setScript_due (l : List HostAct) : (s.setScript l).due = s.due := rfl
@[simp] theorem setScript_draws (l : List HostAct) : (s.setScript l).draws = s.draws := rfl

@[simp] theorem setDue_params (d : Option Nat) : (s.setDue d).params = s.params := rfl
@[simp] theorem setDue_dev (d : Option Nat) : (s.setDue d).dev = s.dev := rfl
@[simp] theorem setDue_hist (d : Option Nat) : (s.setDue d).hist = s.hist := rfl
@[simp] theorem setDue_fsm (d : Option Nat) : (s.setDue d).fsm = s.fsm := rfl
@[simp] theorem setDue_mem (d : Option Nat) : (s.setDue d).mem = s.mem := rfl
@[simp] theorem setDue_script (d : Option Nat) : (s.setDue d).script = s.script := rfl
@[simp] theorem setDue_due (d : Option Nat) : (s.setDue d).due = d := rfl
@[simp] theorem setDue_draws (d : Option Nat) : (s.setDue d).draws = s.draws := rfl

@[simp] theorem takeChoice_params : s.takeChoice.params = s.params := rfl
@[simp] theorem takeChoice_dev : s.takeChoice.dev = s.dev := rfl
@[simp] theorem takeChoice_hist : s.takeChoice.hist = s.hist := rfl
@[simp] theorem takeChoice_fsm : s.takeChoice.fsm = s.fsm := rfl
@[simp] theorem takeChoice_mem : s.takeChoice.mem = s.mem := rfl
@[simp] theorem takeChoice_script : s.takeChoice.script = s.script := rfl
@[simp] theorem takeChoice_due : s.takeChoice.due = s.due := rfl
@[simp] theorem takeChoice_draws : s.takeChoice.draws = s.draws + 1 := rfl

@[simp] theorem tick_params : s.tick.params = s.params := rfl
@[simp] theorem tick_dev : s.tick.dev = s.dev := rfl
@[simp] theorem tick_hist : s.tick.hist = s.hist := rfl
@[simp] theorem tick_fsm : s.tick.fsm = s.fsm := rfl
@[simp] theorem tick_mem : s.tick.mem = s.mem := rfl
@[simp] theorem tick_script : s.tick.script = s.script := rfl
@[simp] theorem tick_due : s.tick.due = s.due.map fun k => k - 1 := rfl
@[simp] theorem tick_draws : s.tick.draws = s.draws := rfl

@[simp] theorem startExchange_cfg (d : Device) (v : Byte) : (d.startExchange v).cfg = d.cfg := rfl
@[simp] theorem startExchange_cs (d : Device) (v : Byte) : (d.startExchange v).cs = d.cs := rfl
@[simp] theorem startExchange_eng (d : Device) (v : Byte) : (d.startExchange v).eng = .busy v := rfl
@[simp] theorem startExchange_done (d : Device) (v : Byte) : (d.startExchange v).done = some false := rfl
@[simp] theorem startExchange_rx (d : Device) (v : Byte) : (d.startExchange v).rx = d.rx := rfl
@[simp] theorem startExchange_fault (d : Device) (v : Byte) : (d.startExchange v).fault = d.fault := rfl
@[simp] theorem startExchange_refusal (d : Device) (v : Byte) : (d.startExchange v).refusal = d.refusal := rfl

@[simp] theorem completeExchange_cfg (d : Device) (r : Byte) : (d.completeExchange r).cfg = d.cfg := rfl
@[simp] theorem completeExchange_cs (d : Device) (r : Byte) : (d.completeExchange r).cs = d.cs := rfl
@[simp] theorem completeExchange_eng (d : Device) (r : Byte) : (d.completeExchange r).eng = .idle := rfl
@[simp] theorem completeExchange_done (d : Device) (r : Byte) : (d.completeExchange r).done = some true := rfl
@[simp] theorem completeExchange_rx (d : Device) (r : Byte) : (d.completeExchange r).rx = some r := rfl
@[simp] theorem completeExchange_fault (d : Device) (r : Byte) : (d.completeExchange r).fault = d.fault := rfl
@[simp] theorem completeExchange_refusal (d : Device) (r : Byte) : (d.completeExchange r).refusal = d.refusal := rfl

@[simp] theorem afterDataRead_cfg (P : Params) (d : Device) : (d.afterDataRead P).cfg = d.cfg := by
  unfold Device.afterDataRead; split <;> rfl
@[simp] theorem afterDataRead_cs (P : Params) (d : Device) : (d.afterDataRead P).cs = d.cs := by
  unfold Device.afterDataRead; split <;> rfl
@[simp] theorem afterDataRead_eng (P : Params) (d : Device) : (d.afterDataRead P).eng = d.eng := by
  unfold Device.afterDataRead; split <;> rfl
@[simp] theorem afterDataRead_rx (P : Params) (d : Device) : (d.afterDataRead P).rx = d.rx := by
  unfold Device.afterDataRead; split <;> rfl
@[simp] theorem afterDataRead_fault (P : Params) (d : Device) : (d.afterDataRead P).fault = d.fault := by
  unfold Device.afterDataRead; split <;> rfl
@[simp] theorem afterDataRead_refusal (P : Params) (d : Device) : (d.afterDataRead P).refusal = d.refusal := by
  unfold Device.afterDataRead; split <;> rfl

/-- DONE after a DATA read: cleared when the parameter says so, kept otherwise. -/
@[simp] theorem afterDataRead_done (P : Params) (d : Device) :
    (d.afterDataRead P).done = if P.doneClearedByDataRead then some false else d.done := by
  unfold Device.afterDataRead; split <;> rfl

@[simp] theorem countPoll_att (f : Fsm) : f.countPoll.att = f.att := rfl
@[simp] theorem countPoll_handle (f : Fsm) : f.countPoll.handle = f.handle := rfl
@[simp] theorem countPoll_pc (f : Fsm) : f.countPoll.pc = f.pc := rfl
@[simp] theorem countPoll_bpw (f : Fsm) : f.countPoll.bpw = f.bpw := rfl
@[simp] theorem countPoll_len (f : Fsm) : f.countPoll.len = f.len := rfl
@[simp] theorem countPoll_tx (f : Fsm) : f.countPoll.tx = f.tx := rfl
@[simp] theorem countPoll_rx (f : Fsm) : f.countPoll.rx = f.rx := rfl
@[simp] theorem countPoll_i (f : Fsm) : f.countPoll.i = f.i := rfl
@[simp] theorem countPoll_b (f : Fsm) : f.countPoll.b = f.b := rfl
@[simp] theorem countPoll_polls (f : Fsm) : f.countPoll.polls = f.polls + 1 := rfl
@[simp] theorem countPoll_r (f : Fsm) : f.countPoll.r = f.r := rfl
@[simp] theorem countPoll_ret (f : Fsm) : f.countPoll.ret = f.ret := rfl

@[simp] theorem enter_att (d : Descriptor) (f : Fsm) : (f.enter d).att = f.att := rfl
@[simp] theorem enter_handle (d : Descriptor) (f : Fsm) : (f.enter d).handle = f.handle := rfl
@[simp] theorem enter_pc (d : Descriptor) (f : Fsm) : (f.enter d).pc = .check := rfl
@[simp] theorem enter_bpw (d : Descriptor) (f : Fsm) : (f.enter d).bpw = d.bpw := rfl
@[simp] theorem enter_len (d : Descriptor) (f : Fsm) : (f.enter d).len = d.len := rfl
@[simp] theorem enter_tx (d : Descriptor) (f : Fsm) : (f.enter d).tx = d.tx := rfl
@[simp] theorem enter_rx (d : Descriptor) (f : Fsm) : (f.enter d).rx = d.rx := rfl
@[simp] theorem enter_i (d : Descriptor) (f : Fsm) : (f.enter d).i = min f.i d.len := rfl
@[simp] theorem enter_b (d : Descriptor) (f : Fsm) : (f.enter d).b = f.b := rfl
@[simp] theorem enter_polls (d : Descriptor) (f : Fsm) : (f.enter d).polls = f.polls := rfl
@[simp] theorem enter_r (d : Descriptor) (f : Fsm) : (f.enter d).r = f.r := rfl
@[simp] theorem enter_ret (d : Descriptor) (f : Fsm) : (f.enter d).ret = f.ret := rfl

end Sys2Proof.Machine
end

