-- ==== Sys2Proof/Laws/Ops.lean ====
section
/-! SUPPORT. One lemma per shared operation that says everything it can do: taking a fault or a refusal, draws, the DONE
flag, the register operations, the engine's step. -/

namespace Sys2Proof.Machine

variable {s t : State}

/-- Live means no fault and no refusal. -/
theorem live_iff (s : State) : s.live = true ↔ s.dev.fault = none ∧ s.dev.refusal = none := by
  simp [State.live, Device.refused]

/-- A live state takes the outcome it is given. -/
theorem whenLive_of_live (h : s.live = true) (k : Host.Outcome State Fault Refusal) : whenLive s k = k := by
  obtain ⟨hf, hr⟩ := (live_iff s).1 h
  simp [whenLive, hf, hr]

/-- A next state comes only from a live state. -/
theorem whenLive_next {k : Host.Outcome State Fault Refusal} (h : whenLive s k = .next t) :
    s.live = true ∧ k = .next t := by
  unfold whenLive at h
  split at h
  · cases h
  · next hf =>
    split at h
    · cases h
    · next hr => exact ⟨(live_iff s).2 ⟨hf, hr⟩, h⟩

/-- Taking the first fault records it and changes nothing else. -/
theorem raiseFault_of_none (h : s.dev.fault = none) (c : FaultCode) (w : ReqWord) :
    s.raiseFault c w = { s with dev := { s.dev with fault := some ⟨c, w⟩ } } := by
  simp [State.raiseFault, h, State.setDev]

/-- A fault already recorded is kept. -/
theorem raiseFault_of_some {f : FaultRecord} (h : s.dev.fault = some f) (c : FaultCode) (w : ReqWord) :
    s.raiseFault c w = s := by
  simp [State.raiseFault, h]

/-- Taking a fault changes at most the record of the fault, which then is not empty. -/
theorem raiseFault_frame (s : State) (c : FaultCode) (w : ReqWord) :
    ∃ f, s.raiseFault c w = { s with dev := { s.dev with fault := some f } } := by
  cases h : s.dev.fault with
  | none => exact ⟨_, raiseFault_of_none h c w⟩
  | some f =>
    refine ⟨f, ?_⟩
    rw [raiseFault_of_some h, ← h]

@[simp] theorem refuse_eq (c : RefusalCode) :
    s.refuse c = { s with dev := { s.dev with refusal := some c } } := rfl

@[simp] theorem draw8_fst : (draw8 s).1 = Config.draw s.draws := rfl
@[simp] theorem draw8_snd : (draw8 s).2 = s.takeChoice := rfl

@[simp] theorem commit_ok (i : Instr) : commit i s (.ok t) = t := rfl
@[simp] theorem commit_error (i : Instr) (c : FaultCode) : commit i s (.error c) = s.raiseFault c (encode i) := rfl

/-- A bit of the one-bit mask. -/
theorem getLsbD_bitMask (k j : Nat) : (bitMask k).getLsbD j = (decide (j < 8) && decide (j = k)) := by
  unfold bitMask
  rw [BitVec.getLsbD_shiftLeft, BitVec.getLsbD_one]
  by_cases h : j < 8 <;> by_cases hk : j = k
  · simp [hk]
  · by_cases hlt : j < k
    · simp [hk, hlt]
    · simp [h, hk, hlt]; omega
  · simp [h]
  · simp [h]

/-- A bit of a byte with one bit set. -/
theorem getLsbD_setBit (v : Byte) (k : Nat) (b : Bool) (j : Nat) (hj : j < 8) :
    (setBit v k b).getLsbD j = if j = k then b else v.getLsbD j := by
  have hm := getLsbD_bitMask k j
  cases b
  · simp only [setBit, Bool.false_eq_true, if_false, BitVec.getLsbD_and, BitVec.getLsbD_not, hm]
    by_cases hk : j = k <;> simp [hk, hj]
  · simp only [setBit, if_true, BitVec.getLsbD_or, hm]
    by_cases hk : j = k <;> simp [hk, hj]
    exact .inr (hk ▸ hj)

/-- The DONE bit of a STATUS byte is the bit put there. -/
@[simp] theorem statusDone_statusByte (P : Params) (o : Byte) (b : Bool) : statusDone P (statusByte P o b) = b := by
  rw [statusDone, statusByte, getLsbD_setBit _ _ _ _ P.statusDoneBit.isLt, if_pos rfl]

/-- What DONE reads as when it is known. -/
theorem readDone_some {d : Bool} (h : s.dev.done = some d) : readDone s = (d, s) := by
  simp [readDone, h]

/-- What DONE reads as when it is unknown: bit 0 of a draw. -/
theorem readDone_none (h : s.dev.done = none) :
    readDone s = ((Config.draw s.draws).getLsbD 0, s.takeChoice) := by
  simp [readDone, h]

/-- Reading DONE changes at most the counter of free choices. -/
theorem readDone_frame (s : State) : ∃ n, (readDone s).2 = { s with draws := n } := by
  cases h : s.dev.done with
  | none => exact ⟨s.draws + 1, by rw [readDone_none h]; rfl⟩
  | some d => exact ⟨s.draws, by rw [readDone_some h]⟩

/-- A STATUS read returns a byte with the DONE bit read, records it, and changes nothing else but the counter of free
choices. -/
theorem rdStatus_frame (s : State) :
    ∃ n, (rdStatus s).2 = { s with hist := s.hist ++ [.busR Reg.status.offset (rdStatus s).1], draws := n } ∧
      statusDone s.params (rdStatus s).1 = (readDone s).1 := by
  obtain ⟨n, hn⟩ := readDone_frame s
  refine ⟨n + 1, ?_, ?_⟩
  · simp only [rdStatus, draw8, hn]; rfl
  · simp only [rdStatus, draw8, hn]; exact statusDone_statusByte _ _ _

/-- With a poll limit the count of 10 R32 is `fsm.polls`. -/
theorem countedPolls_of_limit {P : Params} {m : Nat} (h : P.pollLimit = some m) (f : Fsm) :
    f.countedPolls P = some f.polls := by simp [Fsm.countedPolls, h]

/-- Without a poll limit 10 R32 counts nothing. -/
theorem countedPolls_of_no_limit {P : Params} (h : P.pollLimit = none) (f : Fsm) : f.countedPolls P = none := by
  simp [Fsm.countedPolls, h]

/-- Without a limit the poll never gives up; with one it does after that many reads of DONE = 0. -/
theorem pollExpired_iff (P : Params) (f : Fsm) :
    pollExpired P f = true ↔ ∃ m, P.pollLimit = some m ∧ m ≤ f.polls := by
  cases h : P.pollLimit <;> simp [pollExpired, Fsm.countedPolls, h]

/-- A turn that issues a bus operation is taken as given unless attach has failed. -/
theorem issueTurn_of_reachable (h : s.fsm.att ≠ .attachFailed) (rest : List HostAct)
    (k : Host.Outcome State Fault Refusal) : issueTurn rest s k = k := if_neg h

/-- After a failed attach a turn that issues a bus operation is refused. -/
theorem issueTurn_of_failed (h : s.fsm.att = .attachFailed) (rest : List HostAct)
    (k : Host.Outcome State Fault Refusal) : issueTurn rest s k = .next ((s.setScript rest).refuse .precondition) :=
  if_pos h

/-- The configuration a DATA write needs: CONFIG written with EN and MASTER set (40 R102). -/
def Configured (s : State) : Prop := ∃ c, s.dev.cfg = some c ∧ cfgEn s.params c = true ∧ cfgMaster s.params c = true

/-- A DATA write that is accepted. -/
theorem wrData_of_configured (v : Byte) (he : s.dev.eng = .idle) (hc : Configured s) :
    wrData v s = .ok (beginExchange v s) := by
  obtain ⟨c, h, h1, h2⟩ := hc
  simp [wrData, he, h, h1, h2]

/-- A DATA write is accepted only in an idle, configured block. -/
theorem wrData_ok {v : Byte} (h : wrData v s = .ok t) :
    s.dev.eng = .idle ∧ Configured s ∧ t = beginExchange v s := by
  unfold wrData at h
  split at h
  · cases h
  · next he =>
    split at h
    · cases h
    · next c hc =>
      split at h
      · next hb =>
        rw [Bool.and_eq_true] at hb
        exact ⟨he, ⟨c, hc, hb.1, hb.2⟩, (Except.ok.inj h).symm⟩
      · cases h

/-- What a DATA write that is accepted leaves. -/
theorem beginExchange_eq (v : Byte) (s : State) :
    beginExchange v s =
      { s with
        dev := { s.dev with eng := .busy v, done := some false }
        hist := s.hist ++ [.busW Reg.data.offset v, .xStart v s.dev.cs]
        due := exchangeDelay s.params s.draws
        draws := s.draws + 1 } := by
  simp [beginExchange, State.emit, State.setDev, State.setDue, State.takeChoice, Device.startExchange]

/-- A DATA read gives a byte and changes at most the counter of free choices. -/
theorem dataReadValue_frame (s : State) : ∃ n, (dataReadValue s).2 = { s with draws := n } := by
  unfold dataReadValue
  split
  · split
    · exact ⟨s.draws, rfl⟩
    · exact ⟨s.draws + 1, rfl⟩
  · exact ⟨s.draws + 1, rfl⟩

/-- The received byte is what a DATA read gives while DONE is set. -/
theorem dataReadValue_ready {x : Byte} (hd : s.dev.done = some true) (hx : s.dev.rx = some x) :
    dataReadValue s = (x, s) := by
  simp [dataReadValue, hd, hx]

/-- A DATA read of an idle block: the byte, DONE after it, the event, and nothing else but the counter. -/
theorem rdData_of_idle (he : s.dev.eng = .idle) :
    ∃ n, rdData s = .ok ((dataReadValue s).1,
      { s with
        dev := s.dev.afterDataRead s.params
        hist := s.hist ++ [.busR Reg.data.offset (dataReadValue s).1]
        draws := n }) := by
  obtain ⟨n, hn⟩ := dataReadValue_frame s
  refine ⟨n, ?_⟩
  simp only [rdData, he, hn]
  rfl

/-- A CONFIG write is accepted only with no exchange in flight, no reserved bit and the fastest speed. -/
theorem wrConfig_ok {v : Byte} (h : wrConfig v s = .ok t) :
    s.dev.eng = .idle ∧ cfgRsvd s.params v = 0x00#8 ∧ cfgSpeed s.params v = s.params.speedFastest ∧
      t = { s with dev := { s.dev with cfg := some v }, hist := s.hist ++ [.busW Reg.config.offset v] } := by
  unfold wrConfig at h
  split at h
  · cases h
  · next he =>
    split at h
    · cases h
    · next h1 =>
      split at h
      · cases h
      · next h2 => exact ⟨he, not_not.1 h1, not_not.1 h2, (Except.ok.inj h).symm⟩

/-- A CONFIG write that is accepted. -/
theorem wrConfig_of_legal {v : Byte} (he : s.dev.eng = .idle) (h1 : cfgRsvd s.params v = 0x00#8)
    (h2 : cfgSpeed s.params v = s.params.speedFastest) :
    wrConfig v s =
      .ok { s with dev := { s.dev with cfg := some v }, hist := s.hist ++ [.busW Reg.config.offset v] } := by
  simp [wrConfig, he, h1, h2, State.setDev, State.emit]

/-- A CS write is accepted only with no exchange in flight and a legal value. -/
theorem wrCs_ok {v : Byte} (h : wrCs v s = .ok t) :
    s.dev.eng = .idle ∧ csValueLegal v = true ∧
      t = { s with
            dev := { s.dev with cs := some (levelOfBit (v.getLsbD 0)) }
            hist := s.hist ++ [.busW Reg.cs.offset v] } := by
  unfold wrCs at h
  split at h
  · cases h
  · next he =>
    split at h
    · next h1 => exact ⟨he, h1, (Except.ok.inj h).symm⟩
    · cases h

/-- The engine's step with a given peer. -/
theorem engineCompleteWith_busy (peer : Peer) {b : Byte} (h : s.dev.eng = .busy b) :
    engineCompleteWith peer s =
      { s with
        dev := { s.dev with
                 eng := .idle
                 done := some true
                 rx := some (peer s.hist b s.dev.cs s.draws) }
        hist := s.hist ++ [.xEnd b (peer s.hist b s.dev.cs s.draws) s.dev.cs]
        due := none
        draws := s.draws + 1 } := by
  simp [engineCompleteWith, h, State.emit, State.setDev, State.setDue, State.takeChoice, Device.completeExchange]

/-- The engine's step is not enabled while no exchange is in flight. -/
theorem engineCompleteWith_idle (peer : Peer) (h : s.dev.eng = .idle) : engineCompleteWith peer s = s := by
  simp [engineCompleteWith, h]

/-- The engine's step comes next exactly when an exchange is in flight and no host turn falls before its end. -/
theorem engineDue_iff (s : State) : s.engineDue = true ↔ (∃ b, s.dev.eng = .busy b) ∧ s.due = some 0 := by
  unfold State.engineDue
  split
  · next h1 h2 => simp [h1, h2]
  · next h =>
    simp only [Bool.false_eq_true, false_iff, not_and, forall_exists_index]
    intro b hb hd
    exact h b hb hd

end Sys2Proof.Machine
end

