-- ==== Sys2Proof/Laws/Step.lean ====
section
/-! SUPPORT. What a bus operation and a step can do, said once. -/

namespace Sys2Proof.Machine

variable {s t : State}

/-- What each bus operation gives before it is committed. -/
def busResult (i : Instr) (s : State) : Except FaultCode State :=
  match i with
  | .wrData v => wrData v s
  | .rdData => (rdData s).map Prod.snd
  | .rdStatus => .ok (rdStatus s).2
  | .wrStatus v => wrStatus v s
  | .wrConfig v => wrConfig v s
  | .rdConfig => .ok (rdConfig s).2
  | .wrCs v => wrCs v s
  | .rdCs => .ok (rdCs s).2

/-- Every bus operation is its result, committed, in a live state. -/
theorem exec_eq (i : Instr) (s : State) : exec i s = whenLive s (.next (commit i s (busResult i s))) := by
  cases i <;> rfl

/-- A live state's bus operation always answers a next state. -/
theorem exec_of_live (i : Instr) (h : s.live = true) : exec i s = .next (commit i s (busResult i s)) := by
  rw [exec_eq, whenLive_of_live h]

/-- A bus operation answers a next state only from a live state. -/
theorem exec_next {i : Instr} (h : exec i s = .next t) : s.live = true ∧ t = commit i s (busResult i s) := by
  rw [exec_eq] at h
  obtain ⟨hl, hk⟩ := whenLive_next h
  exact ⟨hl, (Host.Outcome.next.inj hk).symm⟩

/-- A step answers a next state only from a live state: the engine's step, or the host's turn. -/
theorem step_cases (h : step s = .next t) :
    s.live = true ∧
      ((s.engineDue = true ∧ t = engineComplete s) ∨ (s.engineDue = false ∧ hostTurn s.tick = .next t)) := by
  obtain ⟨hl, hk⟩ := whenLive_next h
  refine ⟨hl, ?_⟩
  cases hd : s.engineDue with
  | true => rw [hd] at hk; exact .inl ⟨rfl, (Host.Outcome.next.inj hk).symm⟩
  | false => rw [hd] at hk; exact .inr ⟨rfl, hk⟩

/-- The step when the engine comes next. -/
theorem step_engine (hl : s.live = true) (hd : s.engineDue = true) : step s = .next (engineComplete s) := by
  simp only [step, takeTurn, whenLive_of_live hl, hd, if_true]

/-- The step when the host comes next. -/
theorem step_host (hl : s.live = true) (hd : s.engineDue = false) : step s = hostTurn s.tick := by
  simp [step, takeTurn, whenLive_of_live hl, hd]

/-- Once the engine's step is put off, the host comes next. -/
theorem postponeEngine_engineDue (s : State) : (postponeEngine s).engineDue = false := by
  unfold postponeEngine
  cases hd : s.engineDue with
  | false => simpa using hd
  | true =>
    rw [if_pos rfl, Bool.eq_false_iff, Ne, engineDue_iff]
    rintro ⟨_, h⟩
    cases h

/-- A placed request word is the host's next turn. -/
theorem placeRequest_engineDue (w : ReqWord) (s : State) : (placeRequest w s).engineDue = false :=
  postponeEngine_engineDue s

/-- Passing a host turn keeps the state live. -/
@[simp] theorem tick_live : s.tick.live = s.live := rfl

/-- Taking the next turn off the script keeps the state live. -/
@[simp] theorem setScript_live (l : List HostAct) : (s.setScript l).live = s.live := rfl

/-- The host's turn with a request word: the instruction, or the decoder's fault. -/
theorem runRequest_next {w : ReqWord} (h : runRequest w s = .next t) :
    (∃ i, decode w = .ok i ∧ t = commit i s (busResult i s)) ∨ (∃ c, decode w = .error c ∧ t = s.raiseFault c w) := by
  unfold runRequest at h
  split at h
  · next i hi => exact .inl ⟨i, hi, (exec_next h).2⟩
  · next c hc => exact .inr ⟨c, hc, (Host.Outcome.next.inj (whenLive_next h).2).symm⟩

end Sys2Proof.Machine
end

