-- ==== Sys2Proof/Laws/Cases.lean ====
section
/-! SUPPORT. Inversion, said once: what a bus operation, a transition of the protocol FSM, a call, and a host turn can do.
An invariant over every step is then a short case analysis. -/

namespace Sys2Proof.Machine

variable {s t : State}

/-- Everything a bus operation can do when it answers a next state. -/
inductive BusCase (i : Instr) (s t : State) : Prop where
  | fault (c : FaultCode) (h : t = { s with dev := { s.dev with fault := some ⟨c, encode i⟩ } })
  | wrData (v : Byte) (hi : i = .wrData v) (he : s.dev.eng = .idle) (hc : Configured s) (h : t = beginExchange v s)
  | rdData (n : Nat) (r : Byte) (hi : i = .rdData) (he : s.dev.eng = .idle)
      (h : t = { s with dev := s.dev.afterDataRead s.params, hist := s.hist ++ [.busR 0x0#4 r], draws := n })
  | rdStatus (n : Nat) (r : Byte) (hi : i = .rdStatus)
      (h : t = { s with hist := s.hist ++ [.busR 0x4#4 r], draws := n })
  | wrConfig (v : Byte) (hi : i = .wrConfig v) (he : s.dev.eng = .idle) (h1 : cfgRsvd s.params v = 0x00#8)
      (h2 : cfgSpeed s.params v = s.params.speedFastest)
      (h : t = { s with dev := { s.dev with cfg := some v }, hist := s.hist ++ [.busW 0x8#4 v] })
  | rdConfig (n : Nat) (r : Byte) (hi : i = .rdConfig)
      (h : t = { s with hist := s.hist ++ [.busR 0x8#4 r], draws := n })
  | wrCs (v : Byte) (hi : i = .wrCs v) (he : s.dev.eng = .idle) (h1 : csValueLegal v = true)
      (h : t = { s with
                 dev := { s.dev with cs := some (levelOfBit (v.getLsbD 0)) }
                 hist := s.hist ++ [.busW 0xC#4 v] })
  | rdCs (n : Nat) (r : Byte) (hi : i = .rdCs)
      (h : t = { s with hist := s.hist ++ [.busR 0xC#4 r], draws := n })

/-- An exchange is in flight or none is. -/
theorem eng_cases (s : State) : (∃ b, s.dev.eng = .busy b) ∨ s.dev.eng = .idle := by
  cases s.dev.eng with
  | idle => exact .inr rfl
  | busy b => exact .inl ⟨b, rfl⟩

/-- A result of a bus operation, committed in a state with no fault, is one of the cases. -/
theorem busCase_of_commit (i : Instr) (hf : s.dev.fault = none) : BusCase i s (commit i s (busResult i s)) := by
  cases hr : busResult i s with
  | error c => exact .fault c (raiseFault_of_none hf c (encode i))
  | ok u =>
    cases i with
    | wrData v => obtain ⟨he, hc, h⟩ := wrData_ok hr; exact .wrData v rfl he hc h
    | rdData =>
      cases he : s.dev.eng with
      | busy b => simp [busResult, rdData, he, Except.map] at hr
      | idle =>
        obtain ⟨n, hn⟩ := rdData_of_idle he
        simp only [busResult, hn, Except.map, Except.ok.injEq] at hr
        exact .rdData n _ rfl he hr.symm
    | rdStatus =>
      obtain ⟨n, hn, _⟩ := rdStatus_frame s
      exact .rdStatus n _ rfl ((Except.ok.inj hr).symm.trans hn)
    | wrStatus v => cases hr
    | wrConfig v => obtain ⟨he, h1, h2, h⟩ := wrConfig_ok hr; exact .wrConfig v rfl he h1 h2 h
    | rdConfig => exact .rdConfig (s.draws + 1) (Config.draw s.draws) rfl (Except.ok.inj hr).symm
    | wrCs v => obtain ⟨he, h1, h⟩ := wrCs_ok hr; exact .wrCs v rfl he h1 h
    | rdCs => exact .rdCs (s.draws + 1) (Config.draw s.draws) rfl (Except.ok.inj hr).symm

/-- A bus operation that answers a next state does one of the cases. -/
theorem exec_cases {i : Instr} (h : exec i s = .next t) : BusCase i s t := by
  obtain ⟨hl, rfl⟩ := exec_next h
  exact busCase_of_commit i ((live_iff s).1 hl).1

/-- Everything a transition of the protocol FSM can do in a state with no fault. -/
inductive FsmCase (s t : State) : Prop where
  | idle (hp : s.fsm.pc = .idle) (h : t = s)
  | badShape (hp : s.fsm.pc = .check) (hb : s.fsm.buffersFit = false) (h : t = s.refuse .desc)
  | badWidth (hp : s.fsm.pc = .check) (hb : s.fsm.buffersFit = true) (hw : s.fsm.bpw ≠ Config.wordBits)
      (h : t = { s with hist := s.hist ++ [.log .eConfig], fsm := { s.fsm with ret := 0, pc := .finish } })
  | checked (hp : s.fsm.pc = .check) (hb : s.fsm.buffersFit = true) (hw : s.fsm.bpw = Config.wordBits)
      (h : t = { s with
                 fsm := { s.fsm with
                          i := 0
                          ret := s.fsm.len
                          pc := if s.fsm.len = 0 then .finish else .emit } })
  | emitFault (c : FaultCode) (hp : s.fsm.pc = .emit)
      (hc : (∃ b, s.dev.eng = .busy b) ∨ (s.dev.eng = .idle ∧ ¬ Configured s))
      (h : t = { s with dev := { s.dev with fault := some ⟨c, encode (.wrData (emitByte s))⟩ } })
  | emitted (hp : s.fsm.pc = .emit) (he : s.dev.eng = .idle) (hc : Configured s)
      (h : t = { beginExchange (emitByte s) s with fsm := { s.fsm with b := emitByte s, polls := 0, pc := .poll } })
  | pollDone (n : Nat) (v : Byte) (hp : s.fsm.pc = .poll) (hd : (readDone s).1 = true)
      (hv : statusDone s.params v = true)
      (h : t = { s with
                 hist := s.hist ++ [.busR 0x4#4 v]
                 fsm := { s.fsm with pc := .read }
                 draws := n })
  | pollExpired (n : Nat) (v : Byte) (hp : s.fsm.pc = .poll) (hd : (readDone s).1 = false)
      (hv : statusDone s.params v = false) (hx : pollExpired s.params s.fsm.countPoll = true)
      (h : t = { s with
                 hist := s.hist ++ [.busR 0x4#4 v, .log .eNonResponse]
                 fsm := { s.fsm with polls := s.fsm.polls + 1, ret := s.fsm.i, pc := .finish }
                 draws := n })
  | pollAgain (n : Nat) (v : Byte) (hp : s.fsm.pc = .poll) (hd : (readDone s).1 = false)
      (hv : statusDone s.params v = false) (hx : pollExpired s.params s.fsm.countPoll = false)
      (h : t = { s with
                 hist := s.hist ++ [.busR 0x4#4 v]
                 fsm := { s.fsm with polls := s.fsm.polls + 1, pc := .poll }
                 draws := n })
  | readFault (hp : s.fsm.pc = .read) (hb : ∃ b, s.dev.eng = .busy b)
      (h : t = { s with dev := { s.dev with fault := some ⟨.dataRdBusy, encode .rdData⟩ } })
  | gotByte (n : Nat) (hp : s.fsm.pc = .read) (he : s.dev.eng = .idle)
      (h : t = { s with
                 dev := s.dev.afterDataRead s.params
                 hist := s.hist ++ [.busR 0x0#4 (dataReadValue s).1]
                 fsm := { s.fsm with r := (dataReadValue s).1, pc := .store }
                 draws := n })
  | stored (hp : s.fsm.pc = .store)
      (h : t = { s with
                 fsm := { s.fsm with i := s.fsm.i + 1, pc := if s.fsm.i + 1 = s.fsm.len then .finish else .emit }
                 mem := storedMem s })
  | finished (hp : s.fsm.pc = .finish)
      (h : t = { s with hist := s.hist ++ [.finalize, .ret s.fsm.ret], fsm := { s.fsm with pc := .idle } })

/-- A DATA write is turned away busy, or idle and not configured. -/
theorem wrData_error {v : Byte} {c : FaultCode} (h : wrData v s = .error c) :
    (∃ b, s.dev.eng = .busy b) ∨ (s.dev.eng = .idle ∧ ¬ Configured s) := by
  cases he : s.dev.eng with
  | busy b => exact .inl ⟨b, rfl⟩
  | idle =>
    refine .inr ⟨rfl, fun hc => ?_⟩
    rw [wrData_of_configured v he hc] at h
    cases h

/-- POLL, its three outcomes. -/
theorem fsmPoll_cases (hp : s.fsm.pc = .poll) : FsmCase s (fsmPoll s) := by
  obtain ⟨n, hn, hd⟩ := rdStatus_frame s
  have hpoll : fsmPoll s =
      if statusDone (rdStatus s).2.params (rdStatus s).1 then
        (rdStatus s).2.setFsm { (rdStatus s).2.fsm with pc := .read }
      else pollAgain (rdStatus s).2 := rfl
  rw [hpoll, hn]
  cases hv : statusDone s.params (rdStatus s).1 with
  | true => exact .pollDone n _ hp (hd ▸ hv) hv (by simp [State.setFsm, Reg.offset])
  | false =>
    cases hx : pollExpired s.params s.fsm.countPoll with
    | true =>
      exact .pollExpired n _ hp (hd ▸ hv) hv hx
        (by simp [pollAgain, hx, State.setFsm, State.emit, Reg.offset])
    | false => exact .pollAgain n _ hp (hd ▸ hv) hv hx (by simp [pollAgain, hx, State.setFsm, Reg.offset])

/-- A transition of the protocol FSM does one of the cases. -/
theorem fsmStep_cases (hf : s.dev.fault = none) : FsmCase s (fsmStep s) := by
  unfold fsmStep
  split
  · next hp => exact .idle hp rfl
  · next hp =>
    unfold fsmCheck
    cases hb : s.fsm.buffersFit with
    | false => exact .badShape hp hb (by simp)
    | true =>
      by_cases hw : s.fsm.bpw = Config.wordBits
      · exact .checked hp hb hw (by simp [hw, State.setFsm])
      · exact .badWidth hp hb hw (by simp [hw, State.setFsm, State.emit])
  · next hp =>
    unfold fsmEmit
    cases hr : wrData (emitByte s) s with
    | error c => exact .emitFault c hp (wrData_error hr) (raiseFault_of_none hf _ _)
    | ok u =>
      obtain ⟨he, hc, rfl⟩ := wrData_ok hr
      exact .emitted hp he hc rfl
  · next hp => exact fsmPoll_cases hp
  · next hp =>
    unfold fsmRead
    rcases eng_cases s with ⟨b, hb⟩ | he
    · refine .readFault hp ⟨b, hb⟩ ?_
      have hr : rdData s = .error .dataRdBusy := by simp [rdData, hb]
      rw [hr]
      exact raiseFault_of_none hf _ _
    · obtain ⟨n, hn⟩ := rdData_of_idle he
      exact .gotByte n hp he (by simp [hn, State.setFsm, Reg.offset])
  · next hp => exact .stored hp rfl
  · next hp => exact .finished hp (by simp [fsmFinish, State.emit, State.setFsm])

/-- Everything `attach` can do in a state with no fault. -/
inductive AttachCase (s t : State) : Prop where
  | turnedAway (ha : s.fsm.att ≠ .unattached) (h : t = s.refuse .precondition)
  | aborted (ha : s.fsm.att = .unattached)
      (h : t = { s with hist := s.hist ++ [.attachFail], fsm := { s.fsm with att := .attachFailed } })
  | fault (c : FaultCode) (ha : s.fsm.att = .unattached)
      (hr : wrConfig (configInit s.params) s = .error c)
      (h : t = { s with dev := { s.dev with fault := some ⟨c, encode (.wrConfig (configInit s.params))⟩ } })
  | attached (base : Nat) (ha : s.fsm.att = .unattached) (he : s.dev.eng = .idle)
      (h1 : cfgRsvd s.params (configInit s.params) = 0x00#8)
      (h2 : cfgSpeed s.params (configInit s.params) = s.params.speedFastest)
      (h : t = { s with
                 dev := { s.dev with cfg := some (configInit s.params) }
                 hist := s.hist ++ [.busW 0x8#4 (configInit s.params), .cfgDone, .registered Config.caps]
                 fsm := { s.fsm with att := .attached, pc := .idle, handle := some (Handle.ofBase base) } })

/-- A CONFIG write does not look at the FSM. -/
theorem wrConfig_setFsm_error {v : Byte} {f : Fsm} {c : FaultCode} (h : wrConfig v (s.setFsm f) = .error c) :
    wrConfig v s = .error c := by
  rcases eng_cases s with ⟨b, hb⟩ | he
  · simpa [wrConfig, hb] using h
  · by_cases h1 : cfgRsvd s.params v = 0x00#8
    · by_cases h2 : cfgSpeed s.params v = s.params.speedFastest
      · simp [wrConfig, he, h1, h2] at h
      · simpa [wrConfig, he, h1, h2] using h
    · simpa [wrConfig, he, h1] using h

/-- `attach` does one of the cases. -/
theorem callAttach_cases (m : Option Nat) (hf : s.dev.fault = none) : AttachCase s (callAttach m s) := by
  unfold callAttach
  by_cases ha : s.fsm.att = .unattached
  · rw [if_neg (not_not.2 ha)]
    cases m with
    | none => exact .aborted ha rfl
    | some base =>
      dsimp only
      cases hb : baseOk s.params base with
      | false => exact .aborted ha rfl
      | true =>
        rw [if_pos rfl]
        unfold attachMapped configure
        cases hr : wrConfig (configInit s.params) (s.setFsm { s.fsm with handle := some (Handle.ofBase base) }) with
        | error c =>
          refine .fault c ha (wrConfig_setFsm_error hr) ?_
          simp only [setFsm_params, hr]
          exact raiseFault_of_none hf _ _
        | ok u =>
          obtain ⟨he, h1, h2, rfl⟩ := wrConfig_ok hr
          refine .attached base ha he h1 h2 ?_
          simp only [setFsm_params, hr]
          simp [State.emit, State.setFsm, Reg.offset]
  · rw [if_pos ha]; exact .turnedAway ha rfl

/-- Everything the host's other calls, a reload and a reset can do in a state with no fault. -/
inductive CallCase (s t : State) : Prop where
  | turnedAway (c : RefusalCode) (h : t = s.refuse c)
  | begun (d : Descriptor) (ha : s.fsm.att = .attached) (hp : s.fsm.pc = .idle)
      (h : t = { s with fsm := s.fsm.enter d })
  | csFault (c : FaultCode) (active : Bool) (ha : s.fsm.att = .attached) (hp : s.fsm.pc = .idle)
      (hb : ∃ b, s.dev.eng = .busy b)
      (h : t = { s with dev := { s.dev with fault := some ⟨c, encode (.wrCs (csByte active))⟩ } })
  | csDriven (active : Bool) (ha : s.fsm.att = .attached) (hp : s.fsm.pc = .idle) (he : s.dev.eng = .idle)
      (h : t = { s with
                 dev := { s.dev with cs := some (levelOfBit ((csByte active).getLsbD 0)) }
                 hist := s.hist ++ [.busW 0xC#4 (csByte active)] })

/-- `transfer_one` does one of the cases. -/
theorem callTransferOne_cases (d : Descriptor) : CallCase s (callTransferOne d s) := by
  unfold callTransferOne
  by_cases ha : s.fsm.att = .attached
  · by_cases hp : s.fsm.pc = .idle
    · exact .begun d ha hp (by simp [ha, hp, State.setFsm])
    · exact .turnedAway .reentrant (by simp [ha, hp])
  · exact .turnedAway .precondition (by simp [ha])

/-- Both bytes `set_chip_select` writes are legal CS values. -/
theorem csByte_legal (active : Bool) : csValueLegal (csByte active) = true := by cases active <;> rfl

/-- `set_chip_select` does one of the cases. -/
theorem callSetChipSelect_cases (active : Bool) (hf : s.dev.fault = none) :
    CallCase s (callSetChipSelect active s) := by
  unfold callSetChipSelect
  by_cases ha : s.fsm.att = .attached
  · by_cases hp : s.fsm.pc = .idle
    · rw [if_neg (not_not.2 ha), if_neg (not_not.2 hp)]
      rcases eng_cases s with ⟨b, hb⟩ | he
      · refine .csFault .csBusy active ha hp ⟨b, hb⟩ ?_
        have hr : wrCs (csByte active) s = .error .csBusy := by simp [wrCs, hb]
        rw [hr]
        exact raiseFault_of_none hf _ _
      · refine .csDriven active ha hp he ?_
        simp only [wrCs, he, csByte_legal, if_true, commit_ok]
        rfl
    · exact .turnedAway .reentrant (by simp [ha, hp])
  · exact .turnedAway .precondition (by simp [ha])

/-- Everything a direct call of `configure` can do in a state with no fault. -/
inductive ConfigureCase (s t : State) : Prop where
  | turnedAway (hc : s.fsm.att ≠ .unattached ∨ s.fsm.handle = none) (h : t = s.refuse .precondition)
  | fault (c : FaultCode) (ha : s.fsm.att = .unattached) (hh : s.fsm.handle ≠ none)
      (h : t = { s with dev := { s.dev with fault := some ⟨c, encode (.wrConfig (configInit s.params))⟩ } })
  | written (ha : s.fsm.att = .unattached) (hh : s.fsm.handle ≠ none) (he : s.dev.eng = .idle)
      (h1 : cfgRsvd s.params (configInit s.params) = 0x00#8)
      (h2 : cfgSpeed s.params (configInit s.params) = s.params.speedFastest)
      (h : t = { s with
                 dev := { s.dev with cfg := some (configInit s.params) }
                 hist := s.hist ++ [.busW 0x8#4 (configInit s.params), .cfgDone] })

/-- A direct call of `configure` does one of the cases. -/
theorem callConfigure_cases (hf : s.dev.fault = none) : ConfigureCase s (callConfigure s) := by
  unfold callConfigure
  by_cases ha : s.fsm.att = .unattached
  · by_cases hh : s.fsm.handle = none
    · exact .turnedAway (.inr hh) (by simp [hh])
    · have hs : s.fsm.handle.isSome = true := Option.isSome_iff_ne_none.2 hh
      rw [if_pos (by simp [ha, hs])]
      unfold configure
      cases hr : wrConfig (configInit s.params) s with
      | error c => exact .fault c ha hh (raiseFault_of_none hf _ _)
      | ok u =>
        obtain ⟨he, h1, h2, rfl⟩ := wrConfig_ok hr
        exact .written ha hh he h1 h2 (by simp [State.emit, Reg.offset])
  · exact .turnedAway (.inl ha) (by simp [ha])

/-- Everything the host's turn can do in a live state when it answers a next state. -/
inductive HostCase (s t : State) : Prop where
  | request (w : ReqWord) (rest : List HostAct) (i : Instr) (hs : s.script = .bus w :: rest)
      (ha : s.fsm.att ≠ .attachFailed) (hd : decode w = .ok i)
      (h : BusCase i (s.setScript rest) t)
  | badRequest (w : ReqWord) (rest : List HostAct) (c : FaultCode) (hs : s.script = .bus w :: rest)
      (ha : s.fsm.att ≠ .attachFailed) (hd : decode w = .error c)
      (h : t = { s with script := rest, dev := { s.dev with fault := some ⟨c, w⟩ } })
  | fsm (l : List HostAct) (hs : l = s.script ∨ ∃ a, s.script = a :: l) (h : FsmCase (s.setScript l) t)
  | waited (rest : List HostAct) (hs : s.script = .await :: rest) (hp : s.fsm.pc = .idle) (h : t = s.setScript rest)
  | attach (m : Option Nat) (rest : List HostAct) (hs : s.script = .attach m :: rest)
      (h : AttachCase (s.setScript rest) t)
  | configure (rest : List HostAct) (hs : s.script = .configure :: rest) (h : ConfigureCase (s.setScript rest) t)
  /-- A call, or a turn that issues a bus operation turned away after a failed attach. -/
  | call (a : HostAct) (rest : List HostAct) (hs : s.script = a :: rest) (h : CallCase (s.setScript rest) t)
  | poll (n : Nat) (v : Byte) (rest l : List HostAct) (hs : s.script = .poll :: rest) (hl : l = rest ∨ l = s.script)
      (ha : s.fsm.att ≠ .attachFailed)
      (hv : statusDone s.params v = (readDone s).1)
      (h : t = { s with script := l, hist := s.hist ++ [.busR 0x4#4 v], draws := n })
  | reload (rest : List HostAct) (hs : s.script = .reload :: rest) (hp : s.fsm.pc = .idle)
      (h : t = { s with script := rest, fsm := Fsm.reset })
  | reset (rest : List HostAct) (hs : s.script = .reset :: rest)
      (h : t = { s with script := rest, dev := Device.reset, hist := [], fsm := Fsm.reset, due := none })

/-- The turn that polls: one STATUS read, and the turn again or done. -/
theorem pollTurn_cases (rest : List HostAct) (hs : s.script = .poll :: rest) (ha : s.fsm.att ≠ .attachFailed) :
    HostCase s (pollTurn rest s) := by
  obtain ⟨n, hn, hd⟩ := rdStatus_frame s
  have hturn : pollTurn rest s =
      if statusDone (rdStatus s).2.params (rdStatus s).1 then (rdStatus s).2.setScript rest else (rdStatus s).2 := rfl
  rw [hturn, hn]
  cases hv : statusDone s.params (rdStatus s).1 with
  | true => exact .poll n _ rest rest hs (.inl rfl) ha hd (by simp [State.setScript, Reg.offset])
  | false => exact .poll n _ rest s.script hs (.inr rfl) ha hd (by simp [Reg.offset])

/-- A turn that issues a bus operation: turned away after a failed attach, taken otherwise. -/
theorem issueTurn_next {k : Host.Outcome State Fault Refusal} {rest : List HostAct} (h : issueTurn rest s k = .next t) :
    (s.fsm.att = .attachFailed ∧ t = (s.setScript rest).refuse .precondition) ∨
      (s.fsm.att ≠ .attachFailed ∧ k = .next t) := by
  by_cases ha : s.fsm.att = .attachFailed
  · rw [issueTurn_of_failed ha] at h; exact .inl ⟨ha, (Host.Outcome.next.inj h).symm⟩
  · rw [issueTurn_of_reachable ha] at h; exact .inr ⟨ha, h⟩

/-- The host's turn does one of the cases. -/
theorem hostTurn_cases (hl : s.live = true) (h : hostTurn s = .next t) : HostCase s t := by
  have hf : s.dev.fault = none := ((live_iff s).1 hl).1
  unfold hostTurn at h
  split at h
  · next hs =>
    obtain rfl := Host.Outcome.next.inj h
    refine .fsm [] (.inl hs.symm) ?_
    have : s.setScript [] = s := by rw [← hs]; rfl
    rw [this]; exact fsmStep_cases hf
  · next w rest hs =>
    rcases issueTurn_next h with ⟨_, rfl⟩ | ⟨ha, h⟩
    · exact .call _ rest hs (.turnedAway .precondition rfl)
    · rcases runRequest_next h with ⟨i, hd, rfl⟩ | ⟨c, hd, rfl⟩
      · exact .request w rest i hs ha hd (busCase_of_commit i hf)
      · exact .badRequest w rest c hs ha hd (raiseFault_of_none (s := s.setScript rest) hf c w)
  · next m rest hs => obtain rfl := Host.Outcome.next.inj h; exact .attach m rest hs (callAttach_cases m hf)
  · next rest hs => obtain rfl := Host.Outcome.next.inj h; exact .configure rest hs (callConfigure_cases hf)
  · next d rest hs => obtain rfl := Host.Outcome.next.inj h; exact .call _ rest hs (callTransferOne_cases d)
  · next a rest hs => obtain rfl := Host.Outcome.next.inj h; exact .call _ rest hs (callSetChipSelect_cases a hf)
  · next rest hs => obtain rfl := Host.Outcome.next.inj h; exact .fsm rest (.inr ⟨_, hs⟩) (fsmStep_cases hf)
  · next rest hs =>
    obtain rfl := Host.Outcome.next.inj h
    unfold awaitTurn
    by_cases hp : s.fsm.pc = .idle
    · rw [if_pos hp]; exact .waited rest hs hp rfl
    · rw [if_neg hp]; exact .fsm s.script (.inl rfl) (fsmStep_cases hf)
  · next rest hs =>
    rcases issueTurn_next h with ⟨_, rfl⟩ | ⟨ha, h⟩
    · exact .call _ rest hs (.turnedAway .precondition rfl)
    · obtain rfl := Host.Outcome.next.inj h; exact pollTurn_cases rest hs ha
  · next rest hs =>
    obtain rfl := Host.Outcome.next.inj h
    unfold reloadTurn
    by_cases hp : s.fsm.pc = .idle
    · rw [if_pos hp]; exact .reload rest hs hp rfl
    · rw [if_neg hp]; exact .fsm s.script (.inl rfl) (fsmStep_cases hf)
  · next rest hs => obtain rfl := Host.Outcome.next.inj h; exact .reset rest hs rfl

end Sys2Proof.Machine
end

