-- ==== Sys2Proof/Laws/Decode.lean ====
section
/-! SUPPORT. Small lemmas of the decoder: reading back the fields of a request word. -/

namespace Sys2Proof

/-- One bit of the word of a request (30 R71). -/
theorem getLsbD_wordOfRequest (q : Request) (k : Nat) :
    (wordOfRequest q).getLsbD k =
      if k < 8 then q.wdata.getLsbD k
      else if k < 12 then q.off.getLsbD (k - 8)
      else if k < 13 then q.write && decide (k - 12 = 0)
      else if k < 15 then q.size.getLsbD (k - 13)
      else q.rsv && decide (k - 15 = 0) := by
  simp only [wordOfRequest, BitVec.getLsbD_append, BitVec.getLsbD_ofBool]
  by_cases h1 : k < 8
  · simp [h1]
  by_cases h2 : k < 12
  · have : k - 8 < 4 := by omega
    simp [h1, h2, this]
  by_cases h3 : k < 13
  · have e1 : ¬ k - 8 < 4 := by omega
    have e2 : k - 8 - 4 < 1 := by omega
    have e3 : k - 8 - 4 = k - 12 := by omega
    simp [h1, h2, h3, e1, e3]
    have : k = 12 := by omega
    subst this; simp
  by_cases h4 : k < 15
  · have e1 : ¬ k - 8 < 4 := by omega
    have e2 : ¬ k - 8 - 4 < 1 := by omega
    have e3 : k - 8 - 4 - 1 < 2 := by omega
    have e4 : k - 8 - 4 - 1 = k - 13 := by omega
    have e5 : k - 13 < 2 := by omega
    simp [h1, h2, h3, h4, e1, e2, e4, e5]
  · have e1 : ¬ k - 8 < 4 := by omega
    have e2 : ¬ k - 8 - 4 < 1 := by omega
    have e3 : ¬ k - 8 - 4 - 1 < 2 := by omega
    have e4 : k - 8 - 4 - 1 - 2 = k - 15 := by omega
    simp [h1, h2, h3, h4, e1, e2, e3, e4, Bool.and_comm]

/-- The fields of the word of a request are the request. -/
theorem requestOfWord_wordOfRequest (q : Request) : requestOfWord (wordOfRequest q) = q := by
  obtain ⟨rsv, size, write, off, wdata⟩ := q
  simp only [requestOfWord, Request.mk.injEq]
  refine ⟨?_, ?_, ?_, ?_, ?_⟩
  · rw [getLsbD_wordOfRequest]; simp
  · apply BitVec.eq_of_getLsbD_eq
    intro k hk
    have : k = 0 ∨ k = 1 := by omega
    rcases this with rfl | rfl <;> rw [BitVec.getLsbD_extractLsb'] <;> rw [getLsbD_wordOfRequest] <;> simp
  · rw [getLsbD_wordOfRequest]; simp
  · apply BitVec.eq_of_getLsbD_eq
    intro k hk
    rw [BitVec.getLsbD_extractLsb', getLsbD_wordOfRequest]
    simp [hk]
    intro _; omega
  · apply BitVec.eq_of_getLsbD_eq
    intro k hk
    rw [BitVec.getLsbD_extractLsb', getLsbD_wordOfRequest]
    simp [hk]

/-- Every instruction's request passes the decoder's checks. -/
theorem request_problem (i : Instr) : i.request.problem = none := by
  cases i <;> simp [Instr.request, Request.problem, Request.rsvClear, Request.oneByte, Request.offsetDecodes,
    Request.readCarriesNothing, Reg.offset]

/-- The case table reads an instruction's request as that instruction. -/
theorem selectOp_request (i : Instr) :
    selectOp i.request.write i.request.off i.request.wdata = some i := by
  cases i <;> simp [Instr.request, selectOp, Reg.offset]

end Sys2Proof
end

