-- ==== Sys2Proof/Laws/PerInstr.lean ====
section
/-! SUPPORT. A statement about every instruction as syntax, one lemma per constructor: its word lies in its row of the
opcode map, and it is well-formed (spec 30 R74). -/

namespace Sys2Proof.Laws.TableRow

/-- The instruction's word matches its row of 30 R74, and the instruction is well-formed. -/
def Statement (i : Instr) : Prop := encode i &&& i.tableMask = i.tableMatch ∧ i.wf = true

theorem wrData (v : Byte) : Statement (.wrData v) := by revert v; unfold Statement; decide
theorem rdData : Statement .rdData := by unfold Statement; decide
theorem rdStatus : Statement .rdStatus := by unfold Statement; decide
theorem wrStatus (v : Byte) : Statement (.wrStatus v) := by revert v; unfold Statement; decide
theorem wrConfig (v : Byte) : Statement (.wrConfig v) := by revert v; unfold Statement; decide
theorem rdConfig : Statement .rdConfig := by unfold Statement; decide
theorem wrCs (v : Byte) : Statement (.wrCs v) := by revert v; unfold Statement; decide
theorem rdCs : Statement .rdCs := by unfold Statement; decide

end Sys2Proof.Laws.TableRow
end

