-- ==== Sys2Proof/Tests/Slice0.lean ====
section
/-! SUPPORT. Tests with their expected results from the spec's words and vectors (95 §2), an ill-formed term for every
check, and a witness for the hypotheses of every statement, clause by clause. -/

namespace Sys2Proof.Tests

open Sys2Proof.Machine Sys2Proof.Claims

/-! ## States -/

/-- The state after reset under the reference instantiation of 92 D39. -/
def fresh : State := { State.reset with params := Params.reference }

/-- 95's `S_cfg`: CONFIG holds 0x03, everything else as at reset. -/
def ready : State := { fresh with dev := { Device.reset with cfg := some 0x03#8 } }

/-- `ready`, with an exchange of `b` in flight and `due` host turns before the engine's step. -/
def busy (b : Byte) (due : Option Nat) : State :=
  { ready with dev := { ready.dev with eng := .busy b, done := some false }, due := due }

/-- `ready`, with an exchange completed that gave `r`. -/
def completed (r : Byte) : State := { ready with dev := { ready.dev with done := some true, rx := some r } }

/-- `ready`, faulted. -/
def stopped : State := { ready with dev := { ready.dev with fault := some ⟨.csValue, 0x1C02#16⟩ } }

/-- The FSM attached and idle, as `attach(some 0x1000)` leaves it. -/
def idleFsm : Fsm := { Fsm.reset with att := .attached, handle := some (Handle.ofBase 0x1000) }

/-- A state of the protocol FSM in a call of `len` bytes, at byte `i`, with the device of `s`. -/
def inCall (s : State) (pc : Pc) (len i : Nat) (tx rx : Option Buffer) : State :=
  { s with fsm := { idleFsm with pc := pc, bpw := 8, len := len, ret := len, i := i, tx := tx, rx := rx } }

/-- `ready`, attached and idle. -/
def attached : State := { ready with fsm := idleFsm }

/-- The FSM after a failed attach, with the device of `s`. -/
def attachFailed (s : State) : State := { s with fsm := { Fsm.reset with att := .attachFailed } }

/-- The state with the host's turns to come. -/
def turns (s : State) (l : List HostAct) : State := { s with script := l }

/-! ## Every check of well-formedness refuses an ill-formed term -/

theorem test_wf_reserved_bit : (requestOfWord 0x8000#16).rsvClear = false := by decide
theorem test_wf_width : (requestOfWord 0x2000#16).oneByte = false := by decide
theorem test_wf_offset : (requestOfWord 0x0100#16).offsetDecodes = false := by decide
theorem test_wf_read_data : (requestOfWord 0x0401#16).readCarriesNothing = false := by decide
theorem test_wf_request : (requestOfWord 0xFFFF#16).wf = false := by decide
theorem test_wf_en_is_master : { Params.reference with masterBit := 0 }.enMasterApart = false := by decide
theorem test_wf_en_in_speed : { Params.reference with enBit := 3 }.wf = false := by decide
theorem test_wf_master_in_speed : { Params.reference with masterBit := 2 }.wf = false := by decide
theorem test_wf_poll_limit : { Params.reference with pollLimit := some 0 }.pollLimitOk = false := by decide
theorem test_wf_buffer : Buffer.fits 2 (some ⟨0x100, 3⟩) = false := by decide
theorem test_wf_descriptor : Descriptor.wf ⟨8, 1, none, some ⟨0x100, 0⟩⟩ = false := by decide
theorem test_wf_base : baseOk Params.reference 0xFFFFFFF1 = false := by decide
theorem test_wf_base_highest : baseOk Params.reference 0xFFFFFFF0 = true := by decide
theorem test_wf_memory_zero_entry : Memory.wf [(5, 0x00#8)] = false := by decide
theorem test_wf_memory_order : Memory.wf [(5, 0x01#8), (5, 0x02#8)] = false := by decide

/-! ## Every constructor's word, bit by bit: RSV, SIZE, W, OFF, WDATA (30 R71, R74, V1.1 to V1.9) -/

theorem test_decode_wrData : decode 0b0_00_1_0000_11111111#16 = .ok (.wrData 0xFF#8) := by decide
theorem test_decode_rdData : decode 0b0_00_0_0000_00000000#16 = .ok .rdData := by decide
theorem test_decode_rdStatus : decode 0b0_00_0_0100_00000000#16 = .ok .rdStatus := by decide
theorem test_decode_wrStatus : decode 0b0_00_1_0100_10000000#16 = .ok (.wrStatus 0x80#8) := by decide
theorem test_decode_wrConfig : decode 0b0_00_1_1000_00000011#16 = .ok (.wrConfig 0x03#8) := by decide
theorem test_decode_rdConfig : decode 0b0_00_0_1000_00000000#16 = .ok .rdConfig := by decide
theorem test_decode_wrCs : decode 0b0_00_1_1100_00000001#16 = .ok (.wrCs 0x01#8) := by decide
theorem test_decode_rdCs : decode 0b0_00_0_1100_00000000#16 = .ok .rdCs := by decide

/-- The refused words V1.10 to V1.21. -/
theorem test_decode_refused :
    decode 0x8000#16 = .error .malformed ∧ decode 0xFFFF#16 = .error .malformed ∧
    decode 0x2000#16 = .error .width ∧ decode 0x6400#16 = .error .width ∧ decode 0x4C00#16 = .error .width ∧
    decode 0x0100#16 = .error .offset ∧ decode 0x1F00#16 = .error .offset ∧ decode 0x1D01#16 = .error .offset ∧
    decode 0x2100#16 = .error .width ∧ decode 0x0101#16 = .error .offset ∧
    decode 0x0401#16 = .error .malformed ∧ decode 0x00FF#16 = .error .malformed := by decide

/-- The table's numbering of V1.6, and numbers that are no request word. -/
theorem test_decode_table :
    decodeTableWord 16 0x1803 = some (.wrConfig 0x03#8) ∧ decodeTableWord 16 0x8000 = none ∧
    decodeTableWord 16 0x10000 = none ∧ decodeTableWord 32 0x1803 = none := by decide

/-! ## The bus operations, one step each -/

/-- V2.4. -/
theorem test_wrData_starts :
    ∃ t, exec (.wrData 0x5A#8) ready = .next t ∧ t.dev.eng = .busy 0x5A#8 ∧ t.dev.done = some false ∧
      t.hist = [.busW 0x0#4 0x5A#8, .xStart 0x5A#8 none] := ⟨_, rfl, rfl, rfl, rfl⟩

/-- V2.3: MASTER only. -/
theorem test_wrData_not_configured :
    exec (.wrData 0x00#8) { ready with dev := { ready.dev with cfg := some 0x02#8 } } =
      .next (faulted { ready with dev := { ready.dev with cfg := some 0x02#8 } } .notConfigured 0x1000#16) := by rfl

/-- V2.9. -/
theorem test_rdData_received :
    ∃ t, exec .rdData (completed 0x5A#8) = .next t ∧ t.dev.done = some true ∧ t.hist = [.busR 0x0#4 0x5A#8] :=
  ⟨_, rfl, rfl, rfl⟩

/-- V2.11. -/
theorem test_rdData_clears_done :
    ∃ t, exec .rdData { completed 0x5A#8 with params := { Params.reference with doneClearedByDataRead := true } } = .next t ∧
      t.dev.done = some false ∧ t.hist = [.busR 0x0#4 0x5A#8] := ⟨_, rfl, rfl, rfl⟩

/-- V2.7: DONE reads 0 while an exchange is in flight, whatever the draw. -/
theorem test_rdStatus_busy :
    ∃ t, exec .rdStatus (busy 0x5A#8 none) = .next t ∧
      t.hist = [.busR 0x4#4 (Config.draw 0 &&& ~~~0x01#8)] ∧ t.dev = (busy 0x5A#8 none).dev := ⟨_, rfl, rfl, rfl⟩

/-- V2.8's read. -/
theorem test_rdStatus_done :
    ∃ t, exec .rdStatus (completed 0x5A#8) = .next t ∧ t.hist = [.busR 0x4#4 (Config.draw 0 ||| 0x01#8)] :=
  ⟨_, rfl, rfl⟩

/-- V2.17. -/
theorem test_wrStatus_faults :
    exec (.wrStatus 0xFF#8) ready = .next (faulted ready .statusWr 0x14FF#16) := by rfl

/-- V3.1. -/
theorem test_wrConfig_stores :
    ∃ t, exec (.wrConfig 0x03#8) fresh = .next t ∧ t.dev.cfg = some 0x03#8 ∧ t.hist = [.busW 0x8#4 0x03#8] :=
  ⟨_, rfl, rfl, rfl⟩

/-- V3.8 and V3.3: reserved bits come before speed. -/
theorem test_wrConfig_check_order :
    exec (.wrConfig 0x17#8) fresh = .next (faulted fresh .cfgReserved 0x1817#16) ∧
    exec (.wrConfig 0x04#8) fresh = .next (faulted fresh .cfgSpeed 0x1804#16) := ⟨rfl, rfl⟩

/-- V3.13: a draw, not the value written. -/
theorem test_rdConfig_draws :
    ∃ t, exec .rdConfig ready = .next t ∧ t.hist = [.busR 0x8#4 (Config.draw 0)] := ⟨_, rfl, rfl⟩

/-- V4.1, before CONFIG is written. -/
theorem test_wrCs_drives :
    ∃ t, exec (.wrCs 0x01#8) fresh = .next t ∧ t.dev.cs = some .high ∧ t.hist = [.busW 0xC#4 0x01#8] :=
  ⟨_, rfl, rfl, rfl⟩

/-- V4.3 and V4.6: busy comes before the value. -/
theorem test_wrCs_faults :
    exec (.wrCs 0x02#8) ready = .next (faulted ready .csValue 0x1C02#16) ∧
    exec (.wrCs 0x02#8) (busy 0x5A#8 none) = .next (faulted (busy 0x5A#8 none) .csBusy 0x1C02#16) := ⟨rfl, rfl⟩

/-- V4.8. -/
theorem test_rdCs_draws :
    ∃ t, exec .rdCs ready = .next t ∧ t.hist = [.busR 0xC#4 (Config.draw 0)] := ⟨_, rfl, rfl⟩

/-- 95 §2.3's other instantiation: `CONFIG_INIT` is 0xC3 and the reserved bits are 5:2. -/
theorem test_configInit_other :
    configInit { Params.reference with enBit := 7, masterBit := 6, speedLsb := 0, speedFastest := 0b11#2 } = 0xC3#8 ∧
    cfgNamed { Params.reference with enBit := 7, masterBit := 6, speedLsb := 0 } = ~~~0x3C#8 := by decide

/-! ## The engine, the calls and the FSM, one transition each -/

/-- V5.1, with the echoing peer. -/
theorem test_engine_echo :
    let s := { busy 0x01#8 (some 0) with dev := { (busy 0x01#8 none).dev with cs := some .high } }
    (engineCompleteWith Peer.echo s).dev.rx = some 0x01#8 ∧
    (engineCompleteWith Peer.echo s).hist = [.xEnd 0x01#8 0x01#8 (some .high)] := ⟨rfl, rfl⟩

/-- V5.2, with a peer that answers 0xA5 while the line is low. -/
theorem test_engine_low_line :
    let s := { busy 0x00#8 (some 0) with dev := { (busy 0x00#8 none).dev with cs := some .low } }
    (engineCompleteWith (fun _ _ _ _ => 0xA5#8) s).dev.rx = some 0xA5#8 ∧
    (engineCompleteWith (fun _ _ _ _ => 0xA5#8) s).dev.eng = .idle := ⟨rfl, rfl⟩

/-- V8.1. -/
theorem test_attach :
    (callAttach (some 0x1000) fresh).fsm.att = .attached ∧
    (callAttach (some 0x1000) fresh).hist = [.busW 0x8#4 0x03#8, .cfgDone, .registered Config.caps] := by decide

/-- V8.2 and V8.3. -/
theorem test_attach_none :
    (callAttach none fresh).hist = [.attachFail] ∧
    (callSetChipSelect true (callAttach none fresh)).dev.refusal = some .precondition := by decide

/-- 20 R51, 45 R211: after a failed attach a request word's turn issues nothing. -/
theorem test_no_bus_after_failed_attach :
    ∃ t, step (turns (attachFailed ready) [.bus 0x1C01#16]) = .next t ∧ t.hist = [] ∧ t.dev.cs = none ∧
      t.dev.refused = true := ⟨_, rfl, rfl, rfl, rfl⟩

/-- 45 R215: a reload during a transfer waits; the Device Handle stays. -/
theorem test_reload_waits :
    ∃ t, step (turns (inCall ready .emit 1 0 none none) [.reload]) = .next t ∧ t.fsm.pc = .poll ∧
      t.fsm.handle = some (Handle.ofBase 0x1000) ∧ t.script = [.reload] := ⟨_, rfl, rfl, rfl, rfl⟩

/-- 43 R174 assigns `fsm.polls` without a limit too, and 10 R32's count is there only with one. -/
theorem test_poll_count :
    (pollAgain (inCall ready .poll 1 0 none none)).fsm.polls = 1 ∧
    (pollAgain (inCall ready .poll 1 0 none none)).fsm.countedPolls Params.reference = none ∧
    (pollAgain (inCall ready .poll 1 0 none none)).fsm.countedPolls { Params.reference with pollLimit := some 3 } =
      some 1 := by decide

/-- 10 R32: the index stays within the length of a shorter call. -/
theorem test_shorter_call :
    (callTransferOne ⟨16, 1, none, none⟩ (inCall ready .idle 3 3 none none)).fsm.i = 1 := by decide

/-- V8.6. -/
theorem test_setChipSelect_off :
    (callSetChipSelect false attached).dev.cs = some .low ∧
    (callSetChipSelect false attached).hist = [.busW 0xC#4 0x00#8] := by decide

/-- V7.9: the buffer check comes before the width check. -/
theorem test_check_shape_first :
    (fsmCheck (callTransferOne ⟨16, 3, some ⟨0x100, 1⟩, none⟩ attached)).dev.refusal = some .desc := by decide

/-- V7.5: the width is checked even for an empty transfer. -/
theorem test_check_width :
    (fsmCheck (callTransferOne ⟨7, 0, none, none⟩ attached)).hist = [.log .eConfig] := by decide

/-- V7.3's first write. -/
theorem test_emit_idle_byte :
    (fsmEmit (inCall ready .emit 1 0 none none)).hist = [.busW 0x0#4 0xFF#8, .xStart 0xFF#8 none] := by rfl

/-- 43 R176, 95 S4: with no destination STORE changes no memory. -/
theorem test_store :
    (fsmStore { inCall ready .store 2 1 none (some ⟨0x100, 2⟩) with
                fsm := { (inCall ready .store 2 1 none (some ⟨0x100, 2⟩)).fsm with r := 0x80#8 } }).mem =
      [(0x101, 0x80#8)] ∧
    (fsmStore (inCall ready .store 2 1 none none)).mem = [] := by decide

/-! ## Witnesses: the decoder's statements -/

theorem witness_decodeEncode : (Instr.wrData 0xFF#8).wf = true ∧ decode 0x10FF#16 = .ok (.wrData 0xFF#8) := by decide

theorem witness_illegalRequests :
    ready.live = true ∧
    (0x8000#16).getLsbD 15 = true ∧
    ((0x6000#16).getLsbD 15 = false ∧ (0x6000#16).extractLsb' 13 2 ≠ 0b00#2) ∧
    ((0x0F00#16).getLsbD 15 = false ∧ (0x0F00#16).extractLsb' 13 2 = 0b00#2 ∧
      (0x0F00#16).extractLsb' 8 4 ∉ [0x0#4, 0x4#4, 0x8#4, 0xC#4]) ∧
    ((0x0C01#16).getLsbD 15 = false ∧ (0x0C01#16).extractLsb' 13 2 = 0b00#2 ∧
      (0x0C01#16).extractLsb' 8 4 ∈ [0x0#4, 0x4#4, 0x8#4, 0xC#4] ∧ (0x0C01#16).getLsbD 12 = false ∧
      (0x0C01#16).extractLsb' 0 8 ≠ 0x00#8) := by decide

/-! ## Witnesses: the step -/

theorem witness_step_request :
    let s := turns (busy 0x01#8 (some 1)) [.bus 0x0400#16]
    s.live = true ∧ s.engineDue = false ∧ s.script = .bus 0x0400#16 :: [] ∧ s.fsm.att ≠ .attachFailed ∧
    decode 0x0400#16 = .ok .rdStatus ∧ decode 0x2400#16 = .error .width := by decide

/-- The hypotheses of the clauses about a failed attach: a request word's turn and a poll turn. -/
theorem witness_failed_turns :
    let s := turns (attachFailed ready) [.bus 0x0400#16]
    let u := turns (attachFailed ready) [.poll]
    (s.live = true ∧ s.engineDue = false ∧ s.script = .bus 0x0400#16 :: [] ∧ s.fsm.att = .attachFailed) ∧
    (u.live = true ∧ u.engineDue = false ∧ u.script = .poll :: [] ∧ u.fsm.att = .attachFailed) := by decide

theorem witness_placed :
    ready.fsm.att ≠ .attachFailed ∧ (attachFailed ready).live = true ∧ (attachFailed ready).fsm.att = .attachFailed ∧
    (busy 0x01#8 (some 0)).fsm.att ≠ .attachFailed ∧ ready.live = true ∧ (busy 0x01#8 (some 0)).live = true ∧ (busy 0x01#8 (some 0)).engineDue = true ∧
    (busy 0x01#8 (some 1)).engineDue = false := by decide

theorem witness_host_turns (a : HostAct) :
    (turns ready [a]).live = true ∧ (turns ready [a]).engineDue = false ∧ (turns ready [a]).script = a :: [] :=
  ⟨rfl, rfl, rfl⟩

theorem witness_await_turn :
    let s := turns (inCall ready .check 1 0 none none) [.await]
    ready.fsm.pc = .idle ∧ s.live = true ∧ s.engineDue = false ∧ s.script = .await :: [] ∧ s.fsm.pc ≠ .idle := by decide

theorem witness_host_turn_none : ready.live = true ∧ ready.engineDue = false ∧ ready.script = [] := by decide

theorem witness_stopped :
    stopped.dev.fault ≠ none ∧ (ready.refuse .desc).dev.refused = true ∧
    ∃ t, exec (.wrCs 0x02#8) ready = .next t ∧ t.dev.fault ≠ none :=
  ⟨by decide, by decide, _, rfl, by decide⟩

theorem witness_completes (v : Byte) :
    (∃ t, exec (.wrData v) ready = .next t ∧ t.dev.fault = none) ∧
    (∃ t, exec .rdData ready = .next t ∧ t.dev.fault = none) ∧
    (∃ t, exec .rdStatus ready = .next t ∧ t.dev.fault = none) ∧
    (∃ t, exec (.wrConfig 0x03#8) ready = .next t ∧ t.dev.fault = none) ∧
    (∃ t, exec .rdConfig ready = .next t ∧ t.dev.fault = none) ∧
    (∃ t, exec (.wrCs 0x00#8) ready = .next t ∧ t.dev.fault = none) ∧
    (∃ t, exec .rdCs ready = .next t ∧ t.dev.fault = none) :=
  ⟨⟨_, rfl, rfl⟩, ⟨_, rfl, rfl⟩, ⟨_, rfl, rfl⟩, ⟨_, rfl, rfl⟩, ⟨_, rfl, rfl⟩, ⟨_, rfl, rfl⟩, ⟨_, rfl, rfl⟩⟩

theorem witness_final : ready.final = true ∧ ready.due = none := by decide

theorem witness_reset_event :
    let s := turns (inCall (busy 0x01#8 (some 3)) .poll 1 0 none none) [.reset, .await]
    s.live = true ∧ s.engineDue = false ∧ s.script = .reset :: [.await] := by decide

/-! ## Witnesses: the bus operations -/

/-- A live state in flight, an idle one not configured, an idle one configured. -/
theorem witness_wrData :
    ((busy 0x01#8 none).live = true ∧ ∃ b, (busy 0x01#8 none).dev.eng = .busy b) ∧
    (fresh.live = true ∧ fresh.dev.eng = .idle ∧ ¬ configured fresh) ∧
    (ready.live = true ∧ ready.dev.eng = .idle ∧ configured ready) :=
  ⟨⟨by decide, _, rfl⟩, ⟨by decide, rfl, fun h => by obtain ⟨c, hc, _⟩ := h; cases hc⟩,
    by decide, rfl, _, rfl, by decide⟩

/-- The byte received, DONE unknown, and DONE clear. -/
theorem witness_rdData :
    ((completed 0xFF#8).live = true ∧ (completed 0xFF#8).dev.eng = .idle ∧ (completed 0xFF#8).dev.done = some true ∧
      (completed 0xFF#8).dev.rx = some 0xFF#8) ∧
    (fresh.live = true ∧ fresh.dev.eng = .idle ∧ fresh.dev.done ≠ some true ∧ fresh.dev.rx = none) := by decide

theorem witness_rdStatus :
    ((busy 0x01#8 none).live = true ∧ (busy 0x01#8 none).dev.done = some false) ∧
    ((completed 0x01#8).live = true ∧ (completed 0x01#8).dev.done = some true) ∧
    (fresh.live = true ∧ fresh.dev.done = none) := by decide

theorem witness_wrConfig :
    fresh.live = true ∧ fresh.dev.eng = .idle ∧
    cfgRsvd fresh.params 0x13#8 ≠ 0x00#8 ∧
    (cfgRsvd fresh.params 0x0F#8 = 0x00#8 ∧ cfgSpeed fresh.params 0x0F#8 ≠ fresh.params.speedFastest) ∧
    (cfgRsvd fresh.params 0x03#8 = 0x00#8 ∧ cfgSpeed fresh.params 0x03#8 = fresh.params.speedFastest) := by decide

theorem witness_wrCs :
    fresh.live = true ∧ fresh.dev.eng = .idle ∧ (0x02#8 ≠ 0x00#8 ∧ 0x02#8 ≠ 0x01#8) ∧
    (0x00#8 = 0x00#8 ∨ 0x00#8 = 0x01#8) ∧ (0x01#8 = 0x00#8 ∨ 0x01#8 = 0x01#8) := by decide

theorem witness_frame :
    (∃ t, exec .rdStatus (busy 0x01#8 (some 2)) = .next t) ∧ (∀ v, Instr.rdStatus ≠ .wrConfig v) ∧
    (∀ v, Instr.rdStatus ≠ .wrCs v) ∧ (∀ v, Instr.rdStatus ≠ .wrData v) ∧ Instr.rdStatus ≠ .rdData :=
  ⟨⟨_, rfl⟩, fun _ h => (nomatch h), fun _ h => (nomatch h), fun _ h => (nomatch h), by decide⟩

theorem witness_configInit :
    Params.reference.wf = true ∧
    { Params.reference with enBit := 7, masterBit := 0, speedLsb := 5, speedFastest := 0b10#2 }.wf = true := by decide

theorem witness_no_gate :
    (∃ t, exec (.wrData 0x00#8) ready = .next t ∧ t.dev.fault = none) ∧
    (busy 0x00#8 none).dev.eng = .busy 0x00#8 := ⟨⟨_, rfl, rfl⟩, rfl⟩

theorem witness_engine :
    (busy 0x01#8 (some 0)).live = true ∧ (busy 0x01#8 (some 0)).dev.eng = .busy 0x01#8 ∧
    (busy 0x01#8 (some 0)).due = some 0 ∧ ready.dev.eng = .idle := by decide

theorem witness_busy_step :
    (∃ t, step (turns (busy 0x01#8 (some 1)) [.bus 0x0400#16]) = .next t) ∧
    (busy 0x01#8 (some 1)).dev.busyClear = true ∧ (busy 0x01#8 (some 1)).dev.eng = .busy 0x01#8 ∧
    (turns (busy 0x01#8 (some 1)) [.bus 0x0400#16]).engineDue = false ∧
    (turns (busy 0x01#8 (some 1)) [.bus 0x0400#16]).script.head? ≠ some .reset := by
  exact ⟨⟨_, rfl⟩, by decide⟩

theorem witness_no_cancel :
    (∃ t, exec (.wrData 0x11#8) (busy 0x01#8 none) = .next t) ∧
    (∃ t, exec (.wrConfig 0xFF#8) (busy 0x01#8 none) = .next t) ∧
    (∃ t, exec (.wrCs 0x00#8) (busy 0x01#8 none) = .next t) ∧
    (∃ t, exec .rdData (busy 0x01#8 none) = .next t) ∧ (busy 0x01#8 none).dev.eng = .busy 0x01#8 :=
  ⟨⟨_, rfl⟩, ⟨_, rfl⟩, ⟨_, rfl⟩, ⟨_, rfl⟩, rfl⟩

theorem witness_poll_after_write :
    ∃ t, exec (.wrData 0x33#8) (completed 0x5A#8) = .next t ∧ t.dev.fault = none := ⟨_, rfl, rfl⟩

theorem witness_delivered : (busy 0x01#8 none).live = true ∧ (busy 0x01#8 none).dev.eng = .busy 0x01#8 := by decide

theorem witness_repeated (clears : Bool) :
    let s := { completed 0x5A#8 with params := { Params.reference with doneClearedByDataRead := clears } }
    s.live = true ∧ s.dev.eng = .idle ∧ s.dev.done = some true ∧ s.dev.rx = some 0x5A#8 ∧
    s.params.doneClearedByDataRead = clears := ⟨rfl, rfl, rfl, rfl, rfl⟩

/-! ## Witnesses: the calls -/

/-- A mapped base before attach has registered, which `attach` itself passes through. -/
def mapped : State := { fresh with fsm := { Fsm.reset with handle := some (Handle.ofBase 0x1000) } }

theorem witness_configure :
    (mapped.fsm.att = .unattached ∧ mapped.fsm.handle ≠ none ∧ mapped.dev.eng = .idle ∧ mapped.params.wf = true) ∧
    attached.fsm.att ≠ .unattached ∧ fresh.fsm.handle = none := by decide

theorem witness_attach :
    attached.fsm.att ≠ .unattached ∧ fresh.fsm.att = .unattached ∧
    0xFFFFFFF0 + 15 < 2 ^ fresh.params.addrW ∧ fresh.dev.eng = .idle ∧ fresh.params.wf = true := by decide

theorem witness_attach_aborts :
    (fresh.fsm.att = .unattached ∧ 2 ^ fresh.params.addrW ≤ 0xFFFFFFF1 + 15) ∧
    (let s := busy 0x01#8 (some 3)
     s.fsm.att = .unattached ∧ 0xFFFFFFF0 + 15 < 2 ^ s.params.addrW ∧ s.dev.fault = none ∧
     s.dev.eng = .busy 0x01#8) := by decide

theorem witness_failed_attach :
    fresh.fsm.att = .unattached ∧ (callAttach none fresh).fsm.att = .attachFailed ∧
    (let s := turns (attachFailed ready) [.bus 0x1C01#16]
     s.fsm.att = .attachFailed ∧ s.fsm.pc = .idle ∧ s.script.head? ≠ some .reset ∧ ∃ t, step s = .next t) :=
  ⟨by decide, by decide, by decide, by decide, by decide, _, rfl⟩

theorem witness_reload :
    let s := turns { attached with dev := { attached.dev with cs := some .high } } [.reload]
    s.live = true ∧ s.engineDue = false ∧ s.script = .reload :: [] ∧ 0xFFFFFFF0 + 15 < 2 ^ s.params.addrW ∧
    s.dev.eng = .idle ∧ s.params.wf = true ∧ s.fsm.pc = .idle := by decide

theorem witness_reload_waits :
    let s := turns (inCall (busy 0x01#8 (some 1)) .poll 1 0 none none) [.reload]
    s.live = true ∧ s.engineDue = false ∧ s.script = .reload :: [] ∧ s.fsm.pc ≠ .idle := by decide

theorem witness_setChipSelect :
    fresh.fsm.att ≠ .attached ∧
    ((inCall ready .read 1 0 none none).fsm.att = .attached ∧ (inCall ready .read 1 0 none none).fsm.pc ≠ .idle) ∧
    (let s := inCall (busy 0x01#8 none) .idle 1 0 none none
     s.fsm.att = .attached ∧ s.fsm.pc = .idle ∧ s.dev.fault = none ∧ s.dev.eng = .busy 0x01#8) ∧
    (attached.fsm.att = .attached ∧ attached.fsm.pc = .idle ∧ attached.dev.eng = .idle) := by decide

/-! ## Witnesses: the protocol FSM -/

theorem witness_transferOne :
    fresh.fsm.att ≠ .attached ∧
    ((inCall ready .poll 1 0 none none).fsm.att = .attached ∧ (inCall ready .poll 1 0 none none).fsm.pc ≠ .idle) ∧
    (attached.fsm.att = .attached ∧ attached.fsm.pc = .idle) := by decide

/-- A source too long, a destination too short, then a good shape with a wrong width, a right width, and no byte. -/
theorem witness_check :
    (∃ a, (inCall ready .check 2 0 (some ⟨0x100, 3⟩) none).fsm.tx = some a ∧ a.len ≠ 2) ∧
    (∃ a, (inCall ready .check 2 0 none (some ⟨0x100, 1⟩)).fsm.rx = some a ∧ a.len ≠ 2) ∧
    (∀ a, (inCall ready .check 2 0 (some ⟨0x100, 2⟩) none).fsm.tx = some a → a.len = 2) ∧
    (∀ a, (inCall ready .check 2 0 (some ⟨0x100, 2⟩) none).fsm.rx = some a → a.len = 2) ∧
    (inCall ready .check 2 0 (some ⟨0x100, 2⟩) none).fsm.bpw = 8 ∧
    (callTransferOne ⟨9, 0, none, none⟩ attached).fsm.bpw ≠ 8 ∧ (inCall ready .check 0 0 none none).fsm.len = 0 :=
  ⟨⟨_, rfl, by decide⟩, ⟨_, rfl, by decide⟩, fun _ h => (by cases h; rfl),
    fun _ h => (nomatch h), rfl, by decide, rfl⟩

theorem witness_emit :
    (∃ a, (inCall ready .emit 1 0 (some ⟨0x100, 1⟩) none).fsm.tx = some a ∧
      0x00#8 = Memory.read (inCall ready .emit 1 0 (some ⟨0x100, 1⟩) none).mem (a.base + 0)) ∧
    ((inCall ready .emit 1 0 none none).fsm.tx = none ∧ 0xFF#8 = 0xFF#8) ∧
    ((inCall ready .emit 1 0 none none).dev.eng = .idle ∧ configured (inCall ready .emit 1 0 none none)) ∧
    ((inCall (busy 0x01#8 none) .emit 1 0 none none).dev.fault = none ∧
      ∃ t, (inCall (busy 0x01#8 none) .emit 1 0 none none).dev.eng = .busy t) ∧
    ((inCall fresh .emit 1 0 none none).dev.eng = .idle ∧ ¬ configured (inCall fresh .emit 1 0 none none)) :=
  ⟨⟨_, rfl, rfl⟩, ⟨rfl, rfl⟩, ⟨rfl, _, rfl, by decide⟩, ⟨rfl, _, rfl⟩,
    rfl, fun h => by obtain ⟨c, hc, _⟩ := h; cases hc⟩

/-- A byte of STATUS that shows DONE and one that does not; limits at, above and below the next read. -/
theorem witness_poll :
    (0x01#8).getLsbD Params.reference.statusDoneBit.val = true ∧
    (0xFE#8).getLsbD Params.reference.statusDoneBit.val = false ∧
    (let s := { inCall (busy 0x01#8 none) .poll 1 0 none none with
                params := { Params.reference with pollLimit := some 1 } }
     s.params.pollLimit = some 1 ∧ 1 ≤ s.fsm.polls + 1) ∧
    (let s := { inCall (busy 0x01#8 none) .poll 1 0 none none with
                params := { Params.reference with pollLimit := some 2 } }
     s.params.pollLimit = some 2 ∧ s.fsm.polls + 1 < 2) ∧
    (inCall (busy 0x01#8 none) .poll 1 0 none none).params.pollLimit = none ∧
    (inCall (completed 0x01#8) .poll 1 0 none none).dev.done = some true := by decide

theorem witness_read :
    ((inCall (busy 0x01#8 none) .read 1 0 none none).dev.fault = none ∧
      (inCall (busy 0x01#8 none) .read 1 0 none none).dev.eng = .busy 0x01#8) ∧
    (inCall (completed 0x5A#8) .read 1 0 none none).dev.eng = .idle ∧
    (inCall (completed 0x5A#8) .read 1 0 none none).dev.done = some true ∧
    (inCall (completed 0x5A#8) .read 1 0 none none).dev.rx = some 0x5A#8 := by decide

theorem witness_store :
    (inCall ready .store 2 1 none none).fsm.rx = none ∧
    (inCall ready .store 2 1 none (some ⟨0x100, 2⟩)).fsm.rx = some ⟨0x100, 2⟩ ∧
    Memory.wf (inCall ready .store 2 1 none (some ⟨0x100, 2⟩)).mem = true := by decide

theorem witness_unsupported_width :
    let s := callTransferOne ⟨16, 1, some ⟨0x100, 1⟩, some ⟨0x200, 1⟩⟩ attached
    s.live = true ∧ s.script = [] ∧ s.fsm.att = .attached ∧ s.fsm.pc = .check ∧ s.fsm.buffersFit = true ∧
    s.fsm.bpw ≠ 8 ∧ s.dev.eng = .idle := by decide

/-- A byte whose engine step comes at once under the tightest limit, and one after three polls without a limit. -/
theorem witness_one_byte :
    (let s := { inCall (busy 0x01#8 (some 0)) .poll 1 0 none none with
                params := { Params.reference with pollLimit := some 1 } }
     s.live = true ∧ s.script = [] ∧ s.fsm.pc = .poll ∧ s.dev.eng = .busy 0x01#8 ∧ s.dev.done = some false ∧
     s.due = some 0 ∧ s.params.pollLimit = some 1 ∧ s.fsm.polls + 0 < 1) ∧
    (let s := inCall (busy 0x01#8 (some 3)) .poll 2 1 none (some ⟨0x100, 2⟩)
     s.live = true ∧ s.script = [] ∧ s.fsm.pc = .poll ∧ s.dev.eng = .busy 0x01#8 ∧ s.dev.done = some false ∧
     s.due = some 3 ∧ s.params.pollLimit = none ∧ s.fsm.rx = some ⟨0x100, 2⟩ ∧ s.fsm.i + 1 = s.fsm.len) := by decide

theorem witness_hang :
    let s := inCall (busy 0x01#8 none) .poll 1 0 none none
    s.live = true ∧ s.script = [] ∧ s.fsm.pc = .poll ∧ s.dev.eng = .busy 0x01#8 ∧ s.dev.done = some false ∧
    s.due = none ∧ s.params.pollLimit = none := by decide

theorem witness_timeout :
    let s := { inCall (busy 0x10#8 (some 2)) .poll 2 1 none none with
               params := { Params.reference with pollLimit := some 1 } }
    s.live = true ∧ s.script = [] ∧ s.fsm.pc = .poll ∧ s.dev.eng = .busy 0x10#8 ∧ s.dev.done = some false ∧
    s.params.pollLimit = some 1 ∧ 1 ≤ 1 ∧ s.fsm.polls = 0 ∧ ∀ k, s.due = some k → 1 < k :=
  ⟨rfl, rfl, rfl, rfl, rfl, rfl, by decide, rfl, fun _ h => by cases h; decide⟩

/-- Three bytes in place, and none. -/
theorem witness_whole_transfer :
    (let s := callTransferOne ⟨8, 3, some ⟨0x100, 3⟩, some ⟨0x100, 3⟩⟩ attached
     s.live = true ∧ s.script = [] ∧ s.fsm.pc = .check ∧ s.fsm.bpw = 8 ∧ s.fsm.buffersFit = true ∧
     s.dev.eng = .idle ∧ configured s ∧ s.params.pollLimit = none ∧ s.params.engineCompletes = true ∧
     Memory.wf s.mem = true ∧ s.fsm.tx = some ⟨0x100, 3⟩ ∧ noOverrun s.fsm ∧ s.fsm.rx = some ⟨0x100, 3⟩) ∧
    (callTransferOne ⟨8, 0, none, none⟩ attached).fsm.buffersFit = true := by
  refine ⟨⟨rfl, rfl, rfl, rfl, rfl, rfl, ⟨_, rfl, by decide⟩, rfl, rfl, rfl, rfl, ?_, rfl⟩, rfl⟩
  intro a b ha hb i j hji _ h
  cases ha; cases hb
  exact absurd (Nat.add_left_cancel h) (Nat.ne_of_lt hji)

/-! ## Witnesses: the whole machine -/

theorem witness_invariant : (inCall ready .emit 1 0 none none).Inv ∧
    ∃ t, step (inCall ready .emit 1 0 none none) = .next t := by
  exact ⟨by unfold State.Inv; decide, _, rfl⟩

theorem witness_history :
    (∃ t, step (turns ready [.bus 0x1C01#16]) = .next t) ∧ (turns ready [.bus 0x1C01#16]).script.head? ≠ some .reset :=
  ⟨⟨_, rfl⟩, by decide⟩

/-- STORE of 0x80 over 0x00. -/
theorem witness_host_memory :
    let s := { inCall ready .store 1 0 none (some ⟨0x100, 1⟩) with
               fsm := { (inCall ready .store 1 0 none (some ⟨0x100, 1⟩)).fsm with r := 0x80#8 } }
    ∃ t, step s = .next t ∧ Memory.read t.mem 0x100 ≠ Memory.read s.mem 0x100 := ⟨_, rfl, by decide⟩

theorem witness_protocol :
    let s := turns attached [.setChipSelect true, .transferOne ⟨8, 1, none, none⟩, .await]
    (∃ t, step s = .next t) ∧ s.protocolOnly = true ∧ s.fsm.att = .attached := ⟨⟨_, rfl⟩, by decide⟩

theorem witness_clean :
    (let l : List HostAct := [.attach (some 0x1000), .setChipSelect true, .transferOne ⟨8, 1, none, none⟩, .reload]
     Params.reference.wf = true ∧ Params.reference.pollLimit = none ∧
     l.all HostAct.isProtocol = true) ∧
    State.Clean (turns attached [.reload]) ∧ ∃ t, step (turns attached [.reload]) = .next t :=
  ⟨by decide, by unfold State.Clean State.Inv; decide, _, rfl⟩

theorem witness_done_clearing :
    (inCall (completed 0x5A#8) .read 1 0 none none).protocolOnly = true ∧
    ∃ t, Host.Core.run Sys2Proof.core 2 (inCall (completed 0x5A#8) .read 1 0 none none) = .next t := ⟨by decide, _, rfl⟩

theorem witness_poll_turn :
    (turns ready [.poll]).live = true ∧ (turns (completed 0x01#8) [.poll]).engineDue = false ∧
    (turns (completed 0x01#8) [.poll]).script = .poll :: [] ∧ (turns (completed 0x01#8) [.poll]).dev.done = some true ∧
    (turns (completed 0x01#8) [.poll]).fsm.att ≠ .attachFailed ∧
    (turns (busy 0x01#8 (some 1)) [.poll]).engineDue = false ∧
    (turns (busy 0x01#8 (some 1)) [.poll]).dev.done = some false := by decide

end Sys2Proof.Tests
end

section
/-! SUPPORT. CONFIG's fields bit by bit, and what the startup byte puts in each (spec 00 R8, R9, 10 R29, 30 R78). -/

namespace Sys2Proof.Machine

/-- A bit outside the SPEED field is neither of the field's two bits. -/
theorem outsideSpeed_iff (P : Params) (bit : Fin 8) :
    P.outsideSpeed bit = true ↔ bit.val ≠ P.speedLsb.val ∧ bit.val ≠ P.speedLsb.val + 1 := by
  simp [Params.outsideSpeed]

/-- Well-formed parameters keep EN and MASTER out of the SPEED field (00 R8). -/
theorem outsideSpeed_of_wf {P : Params} (h : P.wf = true) :
    P.outsideSpeed P.enBit = true ∧ P.outsideSpeed P.masterBit = true := by
  simp only [Params.wf, Bool.and_eq_true] at h
  obtain ⟨⟨⟨_, hen⟩, hmaster⟩, _⟩ := h
  exact ⟨hen, hmaster⟩

/-- A bit of a two-bit value put into the SPEED field is the value's bit, counted from the low bit of the field. -/
theorem getLsbD_speedField (P : Params) (x : BitVec 2) (j : Nat) (hj : j < 8) :
    (x.setWidth 8 <<< P.speedLsb.val).getLsbD j =
      (decide (P.speedLsb.val ≤ j) && x.getLsbD (j - P.speedLsb.val)) := by
  have hk : j - P.speedLsb.val < 8 := by omega
  simp only [BitVec.getLsbD_shiftLeft, BitVec.getLsbD_setWidth, hj, hk, decide_true, Bool.true_and,
    ← decide_not, not_lt]

/-- The bits of CONFIG with a name: EN, MASTER and the two of SPEED. -/
theorem getLsbD_cfgNamed (P : Params) (j : Nat) (hj : j < 8) :
    (cfgNamed P).getLsbD j =
      (decide (j = P.enBit.val) || decide (j = P.masterBit.val) ||
        (decide (P.speedLsb.val ≤ j) && decide (j - P.speedLsb.val < 2))) := by
  have hfield : (3#8 <<< P.speedLsb.val).getLsbD j =
      (decide (P.speedLsb.val ≤ j) && (BitVec.allOnes 2).getLsbD (j - P.speedLsb.val)) :=
    getLsbD_speedField P (BitVec.allOnes 2) j hj
  simp only [cfgNamed, BitVec.getLsbD_or, getLsbD_bitMask, hfield, BitVec.getLsbD_allOnes, hj, decide_true,
    Bool.true_and]

/-- The bits of the startup byte: EN, MASTER, and those of the fastest speed in their place. -/
theorem getLsbD_configInit (P : Params) (j : Nat) (hj : j < 8) :
    (configInit P).getLsbD j =
      (decide (j = P.enBit.val) || decide (j = P.masterBit.val) ||
        (decide (P.speedLsb.val ≤ j) && P.speedFastest.getLsbD (j - P.speedLsb.val))) := by
  simp only [configInit, BitVec.getLsbD_or, getLsbD_bitMask, getLsbD_speedField P _ j hj, hj, decide_true,
    Bool.true_and]

/-- The startup byte sets EN. -/
theorem cfgEn_configInit (P : Params) : cfgEn P (configInit P) = true := by
  rw [cfgEn, getLsbD_configInit P _ P.enBit.isLt]
  simp

/-- The startup byte sets MASTER. -/
theorem cfgMaster_configInit (P : Params) : cfgMaster P (configInit P) = true := by
  rw [cfgMaster, getLsbD_configInit P _ P.masterBit.isLt]
  simp

/-- The startup byte sets no reserved bit: each bit it sets has a name. -/
theorem cfgRsvd_configInit (P : Params) : cfgRsvd P (configInit P) = 0x00#8 := by
  refine BitVec.eq_of_getLsbD_eq fun j hj => ?_
  have hnamed : (configInit P).getLsbD j = true → (cfgNamed P).getLsbD j = true := by
    rw [getLsbD_configInit P j hj, getLsbD_cfgNamed P j hj]
    simp only [Bool.or_eq_true, Bool.and_eq_true, decide_eq_true_eq]
    exact Or.imp_right (And.imp_right BitVec.lt_of_getLsbD)
  cases hb : (configInit P).getLsbD j with
  | false => simp [cfgRsvd, hb]
  | true => simp [cfgRsvd, hnamed hb]

/-- With EN and MASTER outside the SPEED field, the startup byte's speed is the fastest. -/
theorem cfgSpeed_configInit {P : Params} (hen : P.outsideSpeed P.enBit = true)
    (hmaster : P.outsideSpeed P.masterBit = true) : cfgSpeed P (configInit P) = P.speedFastest := by
  obtain ⟨hen0, hen1⟩ := (outsideSpeed_iff P _).1 hen
  obtain ⟨hmaster0, hmaster1⟩ := (outsideSpeed_iff P _).1 hmaster
  refine BitVec.eq_of_getLsbD_eq fun k hk => ?_
  have hne : P.speedLsb.val + k ≠ P.enBit.val := by omega
  have hnm : P.speedLsb.val + k ≠ P.masterBit.val := by omega
  have hj : P.speedLsb.val + k < 8 := by omega
  simp [cfgSpeed, hk, getLsbD_configInit P _ hj, hne, hnm]

/-- Settles O26: the first part is the definition, and each field of the startup byte has its lemma; only the speed
needs the parameters to be well-formed. -/
theorem configInitIsAcceptedAlways : Obligations.ConfigInitIsAcceptedAlways := by
  refine ⟨fun _ => rfl, by decide, fun P hwf => ?_⟩
  obtain ⟨hen, hmaster⟩ := outsideSpeed_of_wf hwf
  exact ⟨cfgEn_configInit P, cfgMaster_configInit P, cfgSpeed_configInit hen hmaster, cfgRsvd_configInit P⟩

end Sys2Proof.Machine
end

section
/-! SUPPORT. The host's turn, one equation for each entry at the head of the script, and the step that takes it
(spec 00 R7, 30 R82; log entry 2). -/

namespace Sys2Proof.Machine

open Sys2Proof.Claims

variable {s : State} {rest : List HostAct}

/-- With no turn listed the FSM takes a transition. -/
theorem hostTurn_nil (h : s.script = []) : hostTurn s = .next (fsmStep s) := by
  simp only [hostTurn, h]

/-- An attach turn calls `attach`. -/
theorem hostTurn_attach {m : Option Nat} (h : s.script = .attach m :: rest) :
    hostTurn s = .next (callAttach m (s.setScript rest)) := by
  simp only [hostTurn, h]

/-- A configure turn calls `configure`. -/
theorem hostTurn_configure (h : s.script = .configure :: rest) :
    hostTurn s = .next (callConfigure (s.setScript rest)) := by
  simp only [hostTurn, h]

/-- A transfer turn calls `transfer_one`. -/
theorem hostTurn_transferOne {d : Descriptor} (h : s.script = .transferOne d :: rest) :
    hostTurn s = .next (callTransferOne d (s.setScript rest)) := by
  simp only [hostTurn, h]

/-- A chip-select turn calls `set_chip_select`. -/
theorem hostTurn_setChipSelect {a : Bool} (h : s.script = .setChipSelect a :: rest) :
    hostTurn s = .next (callSetChipSelect a (s.setScript rest)) := by
  simp only [hostTurn, h]

/-- A proceed turn lets the FSM take a transition. -/
theorem hostTurn_proceed (h : s.script = .proceed :: rest) :
    hostTurn s = .next (fsmStep (s.setScript rest)) := by
  simp only [hostTurn, h]

/-- An await turn is over once the FSM is in IDLE. -/
theorem hostTurn_await_of_idle (h : s.script = .await :: rest) (hp : s.fsm.pc = .idle) :
    hostTurn s = .next (s.setScript rest) := by
  simp only [hostTurn, h, awaitTurn, if_pos hp]

/-- An await turn stays listed while the FSM, not yet in IDLE, takes a transition. -/
theorem hostTurn_await_of_running (h : s.script = .await :: rest) (hp : s.fsm.pc ≠ .idle) :
    hostTurn s = .next (fsmStep s) := by
  simp only [hostTurn, h, awaitTurn, if_neg hp]

/-- Putting back the script a state has changes nothing. -/
theorem setScript_of_script {l : List HostAct} (h : s.script = l) : s.setScript l = s := by
  subst h; rfl

/-- A turn taken off the script, after one host turn has passed. -/
theorem popped_eq (s : State) (l : List HostAct) : popped s l = s.tick.setScript l := rfl

/-- Settles O8: the step is the host's turn with one turn passed (`step_host`), and the turn is what its equation says. -/
theorem stepTakesTheHostTurn : Obligations.StepTakesTheHostTurn := by
  intro s hlive hdue
  simp only [step_host hlive hdue, popped_eq]
  refine ⟨fun h => ?_, fun _ _ h => hostTurn_attach h, fun _ h => hostTurn_configure h,
    fun _ _ h => hostTurn_transferOne h, fun _ _ h => hostTurn_setChipSelect h, fun _ h => hostTurn_proceed h,
    fun _ h => ⟨fun hp => hostTurn_await_of_idle h hp, fun hp => ?_⟩⟩
  · rw [setScript_of_script (s := s.tick) h]
    exact hostTurn_nil h
  · rw [setScript_of_script (s := s.tick) (l := s.script) rfl]
    exact hostTurn_await_of_running h hp

end Sys2Proof.Machine
end

section
/-! SUPPORT. The invariant's two larger parts as propositions, one for the device and one for the protocol FSM, and what
each update of the device and of the FSM keeps of them (spec 10 R24, R26, R32, 40 R110, 43 R172 to R177). -/

namespace Sys2Proof.Machine

/-- The device's part of `State.Inv`, in a state with the parameters `P` and `due` host turns before the engine's step. -/
structure Device.Ok (P : Params) (due : Option Nat) (d : Device) : Prop where
  busy : ∀ b, d.eng = .busy b → d.done = some false
  byte : d.done = some true → d.rx ≠ none
  cfg : ∀ c, d.cfg = some c → cfgRsvd P c = 0x00#8 ∧ cfgSpeed P c = P.speedFastest
  due : d.eng = .idle → due = none

/-- The protocol FSM's part of `State.Inv`. -/
structure Fsm.Ok (f : Fsm) : Prop where
  loop : f.pc.inLoop = true → f.bpw = Config.wordBits ∧ f.buffersFit = true ∧ f.i < f.len ∧ f.ret = f.len
  index : f.i ≤ f.len
  attached : f.pc = .idle ∨ f.att = .attached
  handle : f.handle ≠ none ↔ f.att = .attached

/-- An exchange in flight means DONE clear (10 R24). -/
theorem busyClear_iff (d : Device) : d.busyClear = true ↔ ∀ b, d.eng = .busy b → d.done = some false := by
  cases he : d.eng <;> simp [Device.busyClear, he]

/-- DONE set means a byte has been received (10 R26). -/
theorem doneHasByte_iff (d : Device) : d.doneHasByte = true ↔ (d.done = some true → d.rx ≠ none) := by
  simp [Device.doneHasByte, Option.isSome_iff_ne_none, imp_iff_not_or]

/-- What CONFIG holds is a value WR_CONFIG accepts (40 R110). -/
theorem cfgLegal_iff (P : Params) (d : Device) :
    d.cfgLegal P = true ↔ ∀ c, d.cfg = some c → cfgRsvd P c = 0x00#8 ∧ cfgSpeed P c = P.speedFastest := by
  cases hc : d.cfg <;> simp [Device.cfgLegal, hc]

/-- An idle engine awaits no step (41 R141). -/
theorem dueOk_iff (s : State) : s.dueOk = true ↔ (s.dev.eng = .idle → s.due = none) := by
  simp [State.dueOk, imp_iff_not_or]

/-- In the loop the descriptor has passed CHECK and the index is in range (43 R172, R176). -/
theorem loopOk_iff (f : Fsm) :
    f.loopOk = true ↔
      (f.pc.inLoop = true → f.bpw = Config.wordBits ∧ f.buffersFit = true ∧ f.i < f.len ∧ f.ret = f.len) := by
  simp [Fsm.loopOk, imp_iff_not_or, and_assoc]

/-- The Device Handle exists exactly while attached (45 R210). -/
theorem handleOk_iff (f : Fsm) : f.handleOk = true ↔ (f.handle ≠ none ↔ f.att = .attached) := by
  rw [Fsm.handleOk, beq_iff_eq, Bool.eq_iff_iff, Option.isSome_iff_ne_none, beq_iff_eq]

/-- The invariant, part by part. -/
theorem inv_iff (s : State) :
    s.Inv ↔ s.params.wf = true ∧ s.dev.Ok s.params s.due ∧ s.fsm.Ok ∧ Memory.wf s.mem = true := by
  simp only [State.Inv, busyClear_iff, doneHasByte_iff, cfgLegal_iff, dueOk_iff, loopOk_iff, handleOk_iff,
    Fsm.indexOk, Fsm.attachedOk, decide_eq_true_eq, Bool.or_eq_true, beq_iff_eq]
  constructor
  · rintro ⟨hwf, hbusy, hbyte, hcfg, hloop, hindex, hatt, hhandle, hdue, hmem⟩
    exact ⟨hwf, ⟨hbusy, hbyte, hcfg, hdue⟩, ⟨hloop, hindex, hatt, hhandle⟩, hmem⟩
  · rintro ⟨hwf, ⟨hbusy, hbyte, hcfg, hdue⟩, ⟨hloop, hindex, hatt, hhandle⟩, hmem⟩
    exact ⟨hwf, hbusy, hbyte, hcfg, hloop, hindex, hatt, hhandle, hdue, hmem⟩

variable {P : Params} {due : Option Nat} {d : Device} {f : Fsm}

/-- The device right after reset. -/
theorem Device.ok_reset (P : Params) : Device.reset.Ok P none := ⟨nofun, nofun, nofun, fun _ => rfl⟩

/-- The line, the fault and the refusal have no part in the invariant. -/
theorem Device.Ok.setOthers (h : d.Ok P due) (cs : Option Level) (fault : Option FaultRecord)
    (refusal : Option RefusalCode) :
    ({ d with cs := cs, fault := fault, refusal := refusal } : Device).Ok P due :=
  ⟨h.busy, h.byte, h.cfg, h.due⟩

/-- A CONFIG value without reserved bits and with the fastest speed may be stored (40 R110). -/
theorem Device.Ok.setCfg (h : d.Ok P due) {v : Byte} (hr : cfgRsvd P v = 0x00#8)
    (hs : cfgSpeed P v = P.speedFastest) : ({ d with cfg := some v } : Device).Ok P due :=
  ⟨h.busy, h.byte, fun _ hc => Option.some.inj hc ▸ ⟨hr, hs⟩, h.due⟩

/-- Starting an exchange clears DONE, whenever the engine's step is to fall (10 R26). -/
theorem Device.Ok.startExchange (h : d.Ok P due) (v : Byte) (due' : Option Nat) : (d.startExchange v).Ok P due' :=
  ⟨fun _ _ => rfl, nofun, h.cfg, nofun⟩

/-- Completing an exchange puts a byte behind DONE and leaves no engine step awaited (41 R141). -/
theorem Device.Ok.completeExchange (h : d.Ok P due) (r : Byte) : (d.completeExchange r).Ok P none :=
  ⟨nofun, fun _ => nofun, h.cfg, fun _ => rfl⟩

/-- A DATA read can only clear DONE (10 R26). -/
theorem Device.Ok.afterDataRead (h : d.Ok P due) : (d.afterDataRead P).Ok P due := by
  unfold Device.afterDataRead
  split
  · exact ⟨fun _ _ => rfl, nofun, h.cfg, h.due⟩
  · exact h

/-- Passing a host turn starts no wait for the engine. -/
theorem Device.Ok.tick (h : d.Ok P due) : d.Ok P (due.map fun k => k - 1) :=
  ⟨h.busy, h.byte, h.cfg, fun he => by rw [h.due he]; rfl⟩

/-- The FSM right after reset and at every launch. -/
theorem Fsm.ok_reset : Fsm.reset.Ok := ⟨nofun, Nat.le_refl 0, .inl rfl, by decide⟩

/-- Outside IDLE the driver is attached (43 R170). -/
theorem Fsm.Ok.att_of_running (h : f.Ok) (hp : f.pc ≠ .idle) : f.att = .attached := h.attached.resolve_left hp

/-- An unattached FSM is in IDLE. -/
theorem Fsm.Ok.pc_of_unattached (h : f.Ok) (ha : f.att = .unattached) : f.pc = .idle :=
  h.attached.resolve_right (by simp [ha])

/-- An unattached FSM has no handle, so a direct `configure` is turned away (42 R161). -/
theorem Fsm.Ok.handle_of_unattached (h : f.Ok) (ha : f.att = .unattached) : f.handle = none :=
  not_not.1 fun hh => by simp [h.handle.1 hh] at ha

/-- Within the loop the FSM may go on to any state but IDLE, with other work values. -/
theorem Fsm.Ok.moveInLoop (h : f.Ok) (hp : f.pc.inLoop = true) (pc : Pc) (b : Byte) (polls : Nat) (r : Byte) :
    ({ f with pc := pc, b := b, polls := polls, r := r } : Fsm).Ok := by
  have hne : f.pc ≠ .idle := by intro hi; simp [hi, Pc.inLoop] at hp
  exact ⟨fun _ => h.loop hp, h.index, .inr (h.att_of_running hne), h.handle⟩

/-- A running FSM may leave the loop, whatever it then returns. -/
theorem Fsm.Ok.leave (h : f.Ok) (hp : f.pc ≠ .idle) {pc : Pc} (hpc : pc.inLoop = false) (polls ret : Nat) :
    ({ f with pc := pc, polls := polls, ret := ret } : Fsm).Ok :=
  ⟨fun hl => absurd hl (by simp [hpc]), h.index, .inr (h.att_of_running hp), h.handle⟩

/-- CHECK passed: the loop is entered at index 0, unless there is no byte (43 R172). -/
theorem Fsm.Ok.check (h : f.Ok) (hp : f.pc = .check) (hb : f.buffersFit = true) (hw : f.bpw = Config.wordBits) :
    ({ f with i := 0, ret := f.len, pc := if f.len = 0 then .finish else .emit } : Fsm).Ok := by
  refine ⟨fun hl => ⟨hw, hb, ?_, rfl⟩, Nat.zero_le _, .inr (h.att_of_running (by simp [hp])), h.handle⟩
  refine Nat.pos_of_ne_zero fun (h0 : f.len = 0) => ?_
  simp [h0, Pc.inLoop] at hl

/-- STORE advances the index, which leaves the loop when it reaches the length (43 R176). -/
theorem Fsm.Ok.store (h : f.Ok) (hp : f.pc = .store) :
    ({ f with i := f.i + 1, pc := if f.i + 1 = f.len then .finish else .emit } : Fsm).Ok := by
  obtain ⟨hw, hb, hi, hr⟩ := h.loop (by simp [hp, Pc.inLoop])
  refine ⟨fun hl => ⟨hw, hb, ?_, hr⟩, hi, .inr (h.att_of_running (by simp [hp])), h.handle⟩
  refine Nat.lt_of_le_of_ne hi fun (he : f.i + 1 = f.len) => ?_
  simp [he, Pc.inLoop] at hl

/-- Entering a call keeps the index within the new length (43 R170, log entry 20). -/
theorem Fsm.Ok.enter (h : f.Ok) (ha : f.att = .attached) (d : Descriptor) : (f.enter d).Ok :=
  ⟨nofun, Nat.min_le_right _ _, .inr ha, h.handle⟩

/-- A failed attach leaves an FSM in IDLE without a handle (45 R211). -/
theorem Fsm.Ok.attachFailed (h : f.Ok) (ha : f.att = .unattached) :
    ({ f with att := .attachFailed } : Fsm).Ok := by
  have hp : f.pc = .idle := h.pc_of_unattached ha
  have hh : f.handle = none := h.handle_of_unattached ha
  exact ⟨fun hl => by simp [hp, Pc.inLoop] at hl, h.index, .inl hp, by simp [hh]⟩

/-- An attach that succeeds leaves an FSM in IDLE with a handle (45 R210). -/
theorem Fsm.Ok.attach (h : f.Ok) (x : Handle) :
    ({ f with att := .attached, pc := .idle, handle := some x } : Fsm).Ok :=
  ⟨nofun, h.index, .inl rfl, by simp⟩

end Sys2Proof.Machine
end

section
/-! SUPPORT. The invariant holds at reset and is kept by every kind of turn: the engine's step, a bus operation, a
transition of the protocol FSM, and the host's calls (spec 10 R24, R32, R34, R35). -/

namespace Sys2Proof.Machine

variable {s t : State}

/-- The parameters at reset are a legal instantiation, the one thing known of them (00 R8). -/
theorem reset_params_wf : State.reset.params.wf = true := Config.instantiation.legal

/-- Settles O12: each field by its definition. -/
theorem resetDeviceState : Obligations.ResetDeviceState :=
  ⟨rfl, rfl, rfl, rfl, rfl, rfl, rfl, rfl, fun _ => ⟨rfl, rfl⟩⟩

/-- Settles O13: the legality of the parameters is carried by the opaque instantiation. -/
theorem resetFsmAndParameters : Obligations.ResetFsmAndParameters :=
  ⟨rfl, rfl, rfl, reset_params_wf, rfl⟩

/-- Settles O15: the reset device and the reset FSM each meet their part of the invariant. -/
theorem invariantAtReset : Obligations.InvariantAtReset :=
  (inv_iff _).2 ⟨reset_params_wf, Device.ok_reset _, Fsm.ok_reset, rfl⟩

/-- The turns to come have no part in the invariant. -/
theorem State.Inv.setScript (hs : s.Inv) (l : List HostAct) : (s.setScript l).Inv := hs

/-- A fault recorded has no part in the invariant. -/
theorem State.Inv.setFault (hs : s.Inv) (f : FaultRecord) :
    State.Inv { s with dev := { s.dev with fault := some f } } := hs

/-- A refusal recorded has no part in the invariant. -/
theorem State.Inv.refuse (hs : s.Inv) (c : RefusalCode) : (s.refuse c).Inv := hs

/-- Passing a host turn keeps the invariant. -/
theorem State.Inv.tick (hs : s.Inv) : s.tick.Inv := by
  obtain ⟨hwf, hdev, hfsm, hmem⟩ := (inv_iff s).1 hs
  exact (inv_iff _).2 ⟨hwf, hdev.tick, hfsm, hmem⟩

/-- The engine's step keeps the invariant, whatever the peer answers. -/
theorem State.Inv.engineCompleteWith (hs : s.Inv) (peer : Peer) : (engineCompleteWith peer s).Inv := by
  rcases eng_cases s with ⟨b, hb⟩ | hi
  · obtain ⟨hwf, hdev, hfsm, hmem⟩ := (inv_iff s).1 hs
    rw [engineCompleteWith_busy peer hb]
    exact (inv_iff _).2 ⟨hwf, hdev.completeExchange _, hfsm, hmem⟩
  · rw [engineCompleteWith_idle peer hi]
    exact hs

/-- Every bus operation keeps the invariant. -/
theorem BusCase.keeps_inv {i : Instr} (h : BusCase i s t) (hs : s.Inv) : t.Inv := by
  obtain ⟨hwf, hdev, hfsm, hmem⟩ := (inv_iff s).1 hs
  cases h with
  | fault c h => subst h; exact hs.setFault _
  | wrData v _ _ _ h => subst h; exact (inv_iff _).2 ⟨hwf, hdev.startExchange v _, hfsm, hmem⟩
  | rdData n r _ _ h => subst h; exact (inv_iff _).2 ⟨hwf, hdev.afterDataRead, hfsm, hmem⟩
  | rdStatus n r _ h | rdConfig n r _ h | rdCs n r _ h => subst h; exact hs
  | wrConfig v _ _ h1 h2 h => subst h; exact (inv_iff _).2 ⟨hwf, hdev.setCfg h1 h2, hfsm, hmem⟩
  | wrCs v _ _ _ h => subst h; exact (inv_iff _).2 ⟨hwf, hdev.setOthers _ _ _, hfsm, hmem⟩

/-- STORE keeps host memory canonical (20 R52). -/
theorem storedMem_wf (h : Memory.wf s.mem = true) : Memory.wf (storedMem s) = true := by
  unfold storedMem
  split
  · exact Memory.wf_write _ _ h
  · exact h

/-- Every transition of the protocol FSM keeps the invariant. -/
theorem FsmCase.keeps_inv (h : FsmCase s t) (hs : s.Inv) : t.Inv := by
  obtain ⟨hwf, hdev, hfsm, hmem⟩ := (inv_iff s).1 hs
  cases h with
  | idle _ h => exact h ▸ hs
  | badShape _ _ h => subst h; exact hs.refuse _
  | emitFault c _ _ h => subst h; exact hs.setFault _
  | readFault _ _ h => subst h; exact hs.setFault _
  | badWidth hp _ _ h =>
    subst h; exact (inv_iff _).2 ⟨hwf, hdev, hfsm.leave (by simp [hp]) rfl _ _, hmem⟩
  | checked hp hb hw h => subst h; exact (inv_iff _).2 ⟨hwf, hdev, hfsm.check hp hb hw, hmem⟩
  | emitted hp _ _ h =>
    subst h
    exact (inv_iff _).2 ⟨hwf, hdev.startExchange _ _, hfsm.moveInLoop (by rw [hp]; rfl) _ _ _ _, hmem⟩
  | pollDone n v hp _ _ h =>
    subst h; exact (inv_iff _).2 ⟨hwf, hdev, hfsm.moveInLoop (by rw [hp]; rfl) _ _ _ _, hmem⟩
  | pollAgain n v hp _ _ _ h =>
    subst h; exact (inv_iff _).2 ⟨hwf, hdev, hfsm.moveInLoop (by rw [hp]; rfl) _ _ _ _, hmem⟩
  | pollExpired n v hp _ _ _ h =>
    subst h; exact (inv_iff _).2 ⟨hwf, hdev, hfsm.leave (by simp [hp]) rfl _ _, hmem⟩
  | gotByte n hp _ h =>
    subst h
    exact (inv_iff _).2 ⟨hwf, hdev.afterDataRead, hfsm.moveInLoop (by rw [hp]; rfl) _ _ _ _, hmem⟩
  | stored hp h => subst h; exact (inv_iff _).2 ⟨hwf, hdev, hfsm.store hp, storedMem_wf hmem⟩
  | finished hp h =>
    subst h; exact (inv_iff _).2 ⟨hwf, hdev, hfsm.leave (by simp [hp]) rfl _ _, hmem⟩

/-- `attach` keeps the invariant. -/
theorem AttachCase.keeps_inv (h : AttachCase s t) (hs : s.Inv) : t.Inv := by
  obtain ⟨hwf, hdev, hfsm, hmem⟩ := (inv_iff s).1 hs
  cases h with
  | turnedAway _ h => subst h; exact hs.refuse _
  | aborted ha h => subst h; exact (inv_iff _).2 ⟨hwf, hdev, hfsm.attachFailed ha, hmem⟩
  | fault c _ _ h => subst h; exact hs.setFault _
  | attached base _ _ h1 h2 h =>
    subst h; exact (inv_iff _).2 ⟨hwf, hdev.setCfg h1 h2, hfsm.attach _, hmem⟩

/-- A direct call of `configure` keeps the invariant. -/
theorem ConfigureCase.keeps_inv (h : ConfigureCase s t) (hs : s.Inv) : t.Inv := by
  obtain ⟨hwf, hdev, hfsm, hmem⟩ := (inv_iff s).1 hs
  cases h with
  | turnedAway _ h => subst h; exact hs.refuse _
  | fault c _ _ h => subst h; exact hs.setFault _
  | written _ _ _ h1 h2 h => subst h; exact (inv_iff _).2 ⟨hwf, hdev.setCfg h1 h2, hfsm, hmem⟩

/-- The host's other calls keep the invariant. -/
theorem CallCase.keeps_inv (h : CallCase s t) (hs : s.Inv) : t.Inv := by
  obtain ⟨hwf, hdev, hfsm, hmem⟩ := (inv_iff s).1 hs
  cases h with
  | turnedAway c h => subst h; exact hs.refuse _
  | begun d ha _ h => subst h; exact (inv_iff _).2 ⟨hwf, hdev, hfsm.enter ha d, hmem⟩
  | csFault c _ _ _ _ h => subst h; exact hs.setFault _
  | csDriven a _ _ _ h => subst h; exact (inv_iff _).2 ⟨hwf, hdev.setOthers _ _ _, hfsm, hmem⟩

/-- Every turn of the host keeps the invariant. -/
theorem HostCase.keeps_inv (h : HostCase s t) (hs : s.Inv) : t.Inv := by
  obtain ⟨hwf, hdev, hfsm, hmem⟩ := (inv_iff s).1 hs
  cases h with
  | request w rest i _ _ _ h => exact h.keeps_inv (hs.setScript rest)
  | badRequest w rest c _ _ _ h => subst h; exact (hs.setScript rest).setFault _
  | fsm l _ h => exact h.keeps_inv (hs.setScript l)
  | waited rest _ _ h => subst h; exact hs.setScript rest
  | attach m rest _ h => exact h.keeps_inv (hs.setScript rest)
  | configure rest _ h => exact h.keeps_inv (hs.setScript rest)
  | call a rest _ h => exact h.keeps_inv (hs.setScript rest)
  | poll n v rest l _ _ _ _ h => subst h; exact hs.setScript l
  | reload rest _ _ h => subst h; exact (inv_iff _).2 ⟨hwf, hdev, Fsm.ok_reset, hmem⟩
  | reset rest _ h => subst h; exact (inv_iff _).2 ⟨hwf, Device.ok_reset _, Fsm.ok_reset, hmem⟩

/-- Settles O54: a step is the engine's, or the host's once a turn has passed, and each keeps the invariant. -/
theorem stepKeepsInvariant : Obligations.StepKeepsInvariant := by
  intro s t hs hstep
  obtain ⟨hlive, ⟨_, rfl⟩ | ⟨_, hturn⟩⟩ := step_cases hstep
  · exact hs.engineCompleteWith Config.peer
  · exact (hostTurn_cases (s := s.tick) hlive hturn).keeps_inv hs.tick

end Sys2Proof.Machine
end

section
/-! SUPPORT. The history is only appended to: the one before a turn begins the one after it, but for a reset
of the block (spec 10 R31). -/

namespace Sys2Proof.Machine

open Sys2Proof.Claims

variable {s t : State}

/-- A DATA write that is accepted appends its own event and the start of the exchange. -/
theorem hist_prefix_beginExchange (v : Byte) (s : State) : s.hist <+: (beginExchange v s).hist := by
  rw [beginExchange_eq]
  exact List.prefix_append _ _

/-- The engine's step appends the end of the exchange, or nothing. -/
theorem hist_prefix_engineCompleteWith (peer : Peer) (s : State) :
    s.hist <+: (engineCompleteWith peer s).hist := by
  rcases eng_cases s with ⟨b, hb⟩ | hi
  · rw [engineCompleteWith_busy peer hb]
    exact List.prefix_append _ _
  · rw [engineCompleteWith_idle peer hi]

/-- A bus operation appends its events, or nothing when it faults. -/
theorem BusCase.hist_prefix {i : Instr} (h : BusCase i s t) : s.hist <+: t.hist := by
  cases h with
  | fault c h => subst h; exact List.prefix_rfl
  | wrData v _ _ _ h => subst h; exact hist_prefix_beginExchange v s
  | rdData _ _ _ _ h | rdStatus _ _ _ h | rdConfig _ _ _ h | rdCs _ _ _ h | wrConfig _ _ _ _ _ h
  | wrCs _ _ _ _ h => subst h; exact List.prefix_append _ _

/-- A transition of the protocol FSM appends its events. -/
theorem FsmCase.hist_prefix (h : FsmCase s t) : s.hist <+: t.hist := by
  cases h with
  | idle _ h | badShape _ _ h | checked _ _ _ h | emitFault _ _ _ h | readFault _ _ h | stored _ h =>
    subst h; exact List.prefix_rfl
  | emitted _ _ _ h => subst h; exact hist_prefix_beginExchange _ s
  | badWidth _ _ _ h | pollDone _ _ _ _ _ h | pollExpired _ _ _ _ _ _ h | pollAgain _ _ _ _ _ _ h
  | gotByte _ _ _ h | finished _ h => subst h; exact List.prefix_append _ _

/-- `attach` appends its events. -/
theorem AttachCase.hist_prefix (h : AttachCase s t) : s.hist <+: t.hist := by
  cases h with
  | turnedAway _ h | fault _ _ _ h => subst h; exact List.prefix_rfl
  | aborted _ h | attached _ _ _ _ _ h => subst h; exact List.prefix_append _ _

/-- A direct call of `configure` appends its events. -/
theorem ConfigureCase.hist_prefix (h : ConfigureCase s t) : s.hist <+: t.hist := by
  cases h with
  | turnedAway _ h | fault _ _ _ h => subst h; exact List.prefix_rfl
  | written _ _ _ _ _ h => subst h; exact List.prefix_append _ _

/-- The host's other calls append their events. -/
theorem CallCase.hist_prefix (h : CallCase s t) : s.hist <+: t.hist := by
  cases h with
  | turnedAway _ h | begun _ _ _ h | csFault _ _ _ _ _ h => subst h; exact List.prefix_rfl
  | csDriven _ _ _ _ h => subst h; exact List.prefix_append _ _

/-- Every turn of the host but the reset event appends its events. -/
theorem HostCase.hist_prefix (h : HostCase s t) (hreset : s.script.head? ≠ some .reset) : s.hist <+: t.hist := by
  cases h with
  | request _ _ _ _ _ _ h => exact h.hist_prefix
  | fsm _ _ h => exact h.hist_prefix
  | attach _ _ _ h => exact h.hist_prefix
  | configure _ _ h => exact h.hist_prefix
  | call _ _ _ h => exact h.hist_prefix
  | badRequest _ _ _ _ _ _ h | waited _ _ _ h | reload _ _ _ h => subst h; exact List.prefix_rfl
  | poll _ _ _ _ _ _ _ _ h => subst h; exact List.prefix_append _ _
  | reset rest hs _ => exact absurd (by rw [hs]; rfl) hreset

/-- Settles O55: a step is the engine's or the host's, and neither does more to the history than append to it. -/
theorem historyOnlyGrows : Obligations.HistoryOnlyGrows := by
  intro s t hstep hreset
  have hprefix : s.hist <+: t.hist := by
    obtain ⟨hlive, ⟨_, rfl⟩ | ⟨_, hturn⟩⟩ := step_cases hstep
    · exact hist_prefix_engineCompleteWith Config.peer s
    · exact (hostTurn_cases (s := s.tick) hlive hturn).hist_prefix hreset
  obtain ⟨l, hl⟩ := hprefix
  exact ⟨l, hl.symm⟩

end Sys2Proof.Machine
end

section
/-! SUPPORT. The chip-select's assertion against the level of its line (spec 10 R25). -/

namespace Sys2Proof.Machine

/-- The chip-select is asserted exactly when the line has the active level. -/
theorem csAsserted_eq_some_true_iff (P : Params) (d : Device) :
    csAsserted P d = some true ↔ d.cs = some P.csActiveLevel := by
  simp [csAsserted]

/-- Settles O27: the line has the active level, which is high or low. -/
theorem csAssertedFollowsActiveLevel : Obligations.CsAssertedFollowsActiveLevel := by
  intro P d
  refine ⟨?_, Option.map_eq_none_iff⟩
  rw [csAsserted_eq_some_true_iff]
  cases P.csActiveLevel <;> simp

end Sys2Proof.Machine
end

section
/-! SUPPORT. The turn that issues a request word: decoded and executed, or the decoder's fault taken (spec 30 R73, 40
R100, 45 R211; log entries 2, 3, 18). -/

namespace Sys2Proof.Machine

open Sys2Proof.Claims

variable {s : State} {w : ReqWord}

/-- A request turn issues its word, unless attach has failed. -/
theorem hostTurn_bus {rest : List HostAct} (h : s.script = .bus w :: rest) :
    hostTurn s = issueTurn rest s (runRequest w (s.setScript rest)) := by
  simp only [hostTurn, h]

/-- A word that decodes is executed. -/
theorem runRequest_of_decoded {i : Instr} (h : decode w = .ok i) (s : State) : runRequest w s = exec i s := by
  simp only [runRequest, h]

/-- In a live state a word the decoder turns away takes the decoder's fault, and does nothing else. -/
theorem runRequest_of_illegal {c : FaultCode} (hlive : s.live = true) (h : decode w = .error c) :
    runRequest w s = .next (faulted s c w) := by
  simp only [runRequest, h, whenLive_of_live hlive, raiseFault_of_none ((live_iff s).1 hlive).1, faulted]

/-- Settles O6: the step is the host's turn with one turn passed, and the turn is issued unless attach has failed. -/
theorem stepRunsTheRequest : Obligations.StepRunsTheRequest := by
  intro s w rest hlive hdue hscript
  have hstep : step s = issueTurn rest s.tick (runRequest w (popped s rest)) := by
    rw [step_host hlive hdue, hostTurn_bus (s := s.tick) hscript, popped_eq]
  refine ⟨fun hatt => ?_, fun hatt => ?_⟩
  · rw [hstep, issueTurn_of_reachable (s := s.tick) hatt]
    exact ⟨fun i hi => runRequest_of_decoded hi _, fun c hc => runRequest_of_illegal (s := popped s rest) hlive hc⟩
  · rw [hstep, issueTurn_of_failed (s := s.tick) hatt]
    rfl

end Sys2Proof.Machine
end

section
/-! SUPPORT. The frame of the bus operations: what all of them leave unchanged, and which of them writes each field of
the device (spec 10 R26, 20 R52, R56). -/

namespace Sys2Proof.Machine

open Sys2Proof.Claims

variable {s t : State}

/-- No bus operation changes anything of the host's side. -/
theorem BusCase.hostSame {i : Instr} (h : BusCase i s t) : hostSame s t := by
  cases h with
  | fault _ h | wrData _ _ _ _ h | rdData _ _ _ _ h | rdStatus _ _ _ h | wrConfig _ _ _ _ _ h | rdConfig _ _ _ h
  | wrCs _ _ _ _ h | rdCs _ _ _ h => subst h; exact ⟨rfl, rfl, rfl, fun _ => rfl⟩

/-- Settles O24: a fault and the three reads beside RD_DATA change no field named, and each other operation writes only
the fields it is excepted from. -/
theorem frameOfBusOperations : Obligations.FrameOfBusOperations := by
  intro i s t hexec
  have hcase : BusCase i s t := exec_cases hexec
  refine ⟨hcase.hostSame, ?_⟩
  cases hcase with
  | fault _ h | rdStatus _ _ _ h | rdConfig _ _ _ h | rdCs _ _ _ h =>
    subst h
    exact ⟨rfl, rfl, fun _ => rfl, fun _ => rfl, fun _ => ⟨rfl, rfl⟩, fun _ _ => rfl⟩
  | wrData v hi _ _ h =>
    subst h
    exact ⟨rfl, rfl, fun _ => rfl, fun _ => rfl, fun hne => absurd hi (hne v), fun hne => absurd hi (hne v)⟩
  | rdData _ _ hi _ h =>
    subst h
    exact ⟨afterDataRead_rx _ _, afterDataRead_refusal _ _, fun _ => afterDataRead_cfg _ _,
      fun _ => afterDataRead_cs _ _, fun _ => ⟨afterDataRead_eng _ _, rfl⟩, fun _ hne => absurd hi hne⟩
  | wrConfig v hi _ _ _ h =>
    subst h
    exact ⟨rfl, rfl, fun hne => absurd hi (hne v), fun _ => rfl, fun _ => ⟨rfl, rfl⟩, fun _ _ => rfl⟩
  | wrCs v hi _ _ h =>
    subst h
    exact ⟨rfl, rfl, fun _ => rfl, fun hne => absurd hi (hne v), fun _ => ⟨rfl, rfl⟩, fun _ _ => rfl⟩

end Sys2Proof.Machine
end

section
/-! SUPPORT. Host memory from one turn to the next: only the transition STORE writes it, at the index of the byte
received (spec 20 R52, 43 R176). -/

namespace Sys2Proof.Machine

variable {s t : State}

/-- `t` has the parameters of `s`, and reads as `s` does at every address but the one where STORE keeps the received
byte (43 R176). -/
def StoresOnly (s t : State) : Prop :=
  t.params = s.params ∧
    ∀ a, Memory.read t.mem a ≠ Memory.read s.mem a →
      s.fsm.pc = .store ∧ ∃ b, s.fsm.rx = some b ∧ a = b.base + s.fsm.i

/-- A state with the same parameters and the same host memory. -/
theorem StoresOnly.of_same (hparams : t.params = s.params) (hmem : t.mem = s.mem) : StoresOnly s t :=
  ⟨hparams, fun a ha => absurd (congrArg (Memory.read · a) hmem) ha⟩

/-- Where STORE changes what is read: at the index in the destination buffer, so there is one. -/
theorem eq_rx_of_read_storedMem_ne {a : Nat} (h : Memory.read (storedMem s) a ≠ Memory.read s.mem a) :
    ∃ b, s.fsm.rx = some b ∧ a = b.base + s.fsm.i := by
  cases hrx : s.fsm.rx with
  | none => exact absurd (by simp only [storedMem, hrx]) h
  | some b =>
    refine ⟨b, rfl, by_contra fun ha => h ?_⟩
    simp only [storedMem, hrx]
    exact Memory.read_write_other s.mem s.fsm.r ha

/-- The engine's step does not reach host memory. -/
theorem storesOnly_engineCompleteWith (peer : Peer) (s : State) : StoresOnly s (engineCompleteWith peer s) := by
  rcases eng_cases s with ⟨b, hb⟩ | hi
  · rw [engineCompleteWith_busy peer hb]
    exact .of_same rfl rfl
  · rw [engineCompleteWith_idle peer hi]
    exact .of_same rfl rfl

/-- A bus operation leaves the host's side as it was. -/
theorem BusCase.storesOnly {i : Instr} (h : BusCase i s t) : StoresOnly s t := by
  obtain ⟨hparams, _, _, hread⟩ := h.hostSame
  exact ⟨hparams, fun a ha => absurd (hread a) ha⟩

/-- Of the transitions of the protocol FSM only STORE writes host memory. -/
theorem FsmCase.storesOnly (h : FsmCase s t) : StoresOnly s t := by
  cases h with
  | stored hp h =>
    subst h
    exact ⟨rfl, fun _ ha => ⟨hp, eq_rx_of_read_storedMem_ne ha⟩⟩
  | idle _ h | badShape _ _ h | badWidth _ _ _ h | checked _ _ _ h | emitFault _ _ _ h | emitted _ _ _ h
  | pollDone _ _ _ _ _ h | pollExpired _ _ _ _ _ _ h | pollAgain _ _ _ _ _ _ h | readFault _ _ h
  | gotByte _ _ _ h | finished _ h => subst h; exact .of_same rfl rfl

/-- `attach` does not reach host memory. -/
theorem AttachCase.storesOnly (h : AttachCase s t) : StoresOnly s t := by
  cases h with
  | turnedAway _ h | aborted _ h | fault _ _ _ h | attached _ _ _ _ _ h => subst h; exact .of_same rfl rfl

/-- A direct call of `configure` does not reach host memory. -/
theorem ConfigureCase.storesOnly (h : ConfigureCase s t) : StoresOnly s t := by
  cases h with
  | turnedAway _ h | fault _ _ _ h | written _ _ _ _ _ h => subst h; exact .of_same rfl rfl

/-- The host's other calls do not reach host memory. -/
theorem CallCase.storesOnly (h : CallCase s t) : StoresOnly s t := by
  cases h with
  | turnedAway _ h | begun _ _ _ h | csFault _ _ _ _ _ h | csDriven _ _ _ _ h => subst h; exact .of_same rfl rfl

/-- In a turn of the host only the FSM's transition STORE writes host memory. The script has no part in `StoresOnly`, so
what holds with the turn taken off holds of the state itself. -/
theorem HostCase.storesOnly (h : HostCase s t) : StoresOnly s t := by
  cases h with
  | request _ rest _ _ _ _ h => exact h.storesOnly (s := s.setScript rest)
  | fsm l _ h => exact h.storesOnly (s := s.setScript l)
  | attach _ rest _ h => exact h.storesOnly (s := s.setScript rest)
  | configure rest _ h => exact h.storesOnly (s := s.setScript rest)
  | call _ rest _ h => exact h.storesOnly (s := s.setScript rest)
  | badRequest _ _ _ _ _ _ h | waited _ _ _ h | poll _ _ _ _ _ _ _ _ h | reload _ _ _ h | reset _ _ h =>
    subst h; exact .of_same rfl rfl

/-- Settles O56: a step is the engine's or the host's, and neither writes host memory but by STORE. -/
theorem onlyStoreWritesHostMemory : Obligations.OnlyStoreWritesHostMemory := by
  intro s t hstep
  obtain ⟨hlive, ⟨_, rfl⟩ | ⟨_, hturn⟩⟩ := step_cases hstep
  · exact storesOnly_engineCompleteWith Config.peer s
  · exact (hostTurn_cases (s := s.tick) hlive hturn).storesOnly

end Sys2Proof.Machine
end

section
/-! SUPPORT. The decoder and the encoder as inverses of each other, and the opcode map's rows (spec 30 R71 to R75). -/

namespace Sys2Proof

open Sys2Proof.Claims

/-- What the decoder objects to, in the order of its checks (30 R73). -/
theorem Request.problem_eq (q : Request) :
    q.problem =
      if q.rsv = true then some .malformed
      else if q.size ≠ 0b00#2 then some .width
      else if q.off ∉ [0x0#4, 0x4#4, 0x8#4, 0xC#4] then some .offset
      else if q.write = false ∧ q.wdata ≠ 0x00#8 then some .malformed
      else none := by
  simp [Request.problem, Request.rsvClear, Request.oneByte, Request.offsetDecodes, Request.readCarriesNothing,
    Reg.offset, and_assoc]

/-- A request in which the decoder finds a problem is answered by that fault. -/
theorem decodeRequest_of_problem {q : Request} {c : FaultCode} (h : q.problem = some c) :
    decodeRequest q = .error c := by
  simp only [decodeRequest, h]

/-- A request without a problem decodes to the operation the case table selects. -/
theorem decodeRequest_of_selectOp {q : Request} {i : Instr} (h : q.problem = none)
    (hi : selectOp q.write q.off q.wdata = some i) : decodeRequest q = .ok i := by
  simp only [decodeRequest, h, hi]

/-- A request that decodes to an operation has passed the checks, and the case table selected the operation. -/
theorem decodeRequest_ok {q : Request} {i : Instr} (h : decodeRequest q = .ok i) :
    q.problem = none ∧ selectOp q.write q.off q.wdata = some i := by
  unfold decodeRequest at h
  split at h
  · cases h
  · next hp =>
    split at h
    · next hs => exact ⟨hp, hs.trans (congrArg some (Except.ok.inj h))⟩
    · cases h

/-- A request without a problem: bit 15 clear, one byte, and no data with a read. -/
theorem Request.fields_of_problem_eq_none {q : Request} (h : q.problem = none) :
    q.rsv = false ∧ q.size = 0b00#2 ∧ (q.write = false → q.wdata = 0x00#8) := by
  rw [Request.problem_eq] at h
  split_ifs at h with hrsv hsize hoff hdata
  exact ⟨Bool.eq_false_of_not_eq_true hrsv, not_not.1 hsize, fun hw => not_not.1 fun hv => hdata ⟨hw, hv⟩⟩

/-- The request of the operation selected: one byte at the offset given, with the data given if it is a write. -/
theorem request_of_selectOp {write : Bool} {off : BitVec 4} {v : Byte} {i : Instr}
    (h : selectOp write off v = some i) :
    i.request = ⟨false, 0b00#2, write, off, if write then v else 0x00#8⟩ := by
  cases write <;> simp only [selectOp] at h <;> split_ifs at h with hoff hoff hoff hoff
  all_goals
    obtain rfl := Option.some.inj h
    rw [hoff]
    rfl

/-- A request that decodes to an operation is that operation's request. -/
theorem eq_request_of_decodeRequest {q : Request} {i : Instr} (h : decodeRequest q = .ok i) : q = i.request := by
  obtain ⟨hproblem, hselect⟩ := decodeRequest_ok h
  obtain ⟨hrsv, hsize, hdata⟩ := Request.fields_of_problem_eq_none hproblem
  rw [request_of_selectOp hselect, ← hrsv, ← hsize]
  cases hw : q.write with
  | true => rw [if_pos rfl, ← hw]
  | false => rw [if_neg Bool.false_ne_true, ← hw, ← hdata hw]

/-- The word of the fields of a word is the word. -/
theorem wordOfRequest_requestOfWord (w : ReqWord) : wordOfRequest (requestOfWord w) = w := by
  refine BitVec.eq_of_getLsbD_eq fun k hk => ?_
  rw [getLsbD_wordOfRequest]
  simp only [requestOfWord, BitVec.getLsbD_extractLsb']
  split_ifs with h8 h12 h13 h15
  · rw [decide_eq_true h8, Bool.true_and, Nat.zero_add]
  · have hlt : k - 8 < 4 := by omega
    rw [decide_eq_true hlt, Bool.true_and, Nat.add_sub_of_le (not_lt.1 h8)]
  · obtain rfl : k = 12 := by omega
    exact Bool.and_true _
  · have hlt : k - 13 < 2 := by omega
    rw [decide_eq_true hlt, Bool.true_and, Nat.add_sub_of_le (not_lt.1 h13)]
  · obtain rfl : k = 15 := by omega
    exact Bool.and_true _

/-- An operation decodes from its own word. -/
theorem decode_encode (i : Instr) : decode (encode i) = .ok i := by
  rw [decode, encode, requestOfWord_wordOfRequest]
  exact decodeRequest_of_selectOp (request_problem i) (selectOp_request i)

/-- A word that decodes to an operation is the operation's own word. -/
theorem eq_encode_of_decode {w : ReqWord} {i : Instr} (h : decode w = .ok i) : w = encode i := by
  rw [encode, ← eq_request_of_decodeRequest h, wordOfRequest_requestOfWord]

/-- Settles O2: the word carries exactly the request, and the decoder answers an operation exactly for its request. -/
theorem decodeEncodeAgree : Obligations.DecodeEncodeAgree :=
  ⟨fun i _ => decode_encode i, fun _ _ => eq_encode_of_decode⟩

/-- At one of the four offsets the case table selects an operation by W and OFF (30 R73). -/
theorem selectOp_of_mem {write : Bool} {off : BitVec 4} {v : Byte} (h : off ∈ [0x0#4, 0x4#4, 0x8#4, 0xC#4]) :
    selectOp write off v = some
      (if write = true then
        if off = 0x0#4 then .wrData v else if off = 0x4#4 then .wrStatus v
        else if off = 0x8#4 then .wrConfig v else .wrCs v
      else
        if off = 0x0#4 then .rdData else if off = 0x4#4 then .rdStatus
        else if off = 0x8#4 then .rdConfig else .rdCs) := by
  simp only [List.mem_cons, List.not_mem_nil, or_false] at h
  obtain rfl | rfl | rfl | rfl := h <;> cases write <;> rfl

/-- Settles O3: up to the fourth check the decoder's fault is the request's problem; past it the offset is one of the
four, and the case table answers by W and OFF. -/
theorem decodeChecksInOrder : Obligations.DecodeChecksInOrder := by
  intro w
  have hproblem := Request.problem_eq (requestOfWord w)
  split_ifs at hproblem with hrsv hsize hoff hdata
  · exact (decodeRequest_of_problem hproblem).trans (if_pos hrsv).symm
  · exact (decodeRequest_of_problem hproblem).trans ((if_neg hrsv).trans (if_pos hsize)).symm
  · exact (decodeRequest_of_problem hproblem).trans
      ((if_neg hrsv).trans ((if_neg hsize).trans ((if_neg (not_not.2 hoff)).trans (if_pos hdata)))).symm
  · refine .trans ?_
      ((if_neg hrsv).trans ((if_neg hsize).trans ((if_neg (not_not.2 hoff)).trans (if_neg hdata)))).symm
    rw [decode, decodeRequest_of_selectOp hproblem (selectOp_of_mem hoff)]
    simp only [apply_ite Except.ok]
    rfl
  · exact (decodeRequest_of_problem hproblem).trans ((if_neg hrsv).trans ((if_neg hsize).trans (if_pos hoff))).symm

/-- The operation's word is its row's `match` with the data in the low half (30 R74). -/
theorem encode_eq_writeWord (i : Instr) : encode i = writeWord i.tableMatch i.request.wdata := by
  rw [encode, wordOfRequest, BitVec.append_def, BitVec.setWidth'_eq, writeWord]
  congr 1
  cases i <;> simp only [Instr.request, Instr.tableMatch, Reg.offset] <;> rfl

/-- A word is its high byte with its low byte put in. -/
theorem eq_writeWord (w : ReqWord) : w = writeWord (w &&& 0xFF00#16) (w.setWidth 8) := by
  have hhigh : ∀ k < 16, (0xFF00#16).getLsbD k = !decide (k < 8) := by decide
  refine BitVec.eq_of_getLsbD_eq fun k hk => ?_
  simp only [writeWord, BitVec.getLsbD_or, BitVec.getLsbD_and, BitVec.getLsbD_setWidth, hhigh k hk, hk, decide_true,
    Bool.true_and]
  cases decide (k < 8) <;> simp

/-- A word in a row of the opcode map is the word of an operation: of the row's, with the word's own low byte as its
operand if it is a write. -/
theorem exists_encode_of_matches {w : ReqWord} {i : Instr} (h : w &&& i.tableMask = i.tableMatch) :
    ∃ j, w = encode j := by
  have hwrite : ∀ j : Instr, w &&& 0xFF00#16 = j.tableMatch → j.request.wdata = w.setWidth 8 → w = encode j :=
    fun j hrow hdata => by rw [encode_eq_writeWord, ← hrow, hdata]; exact eq_writeWord w
  have hread : ∀ row, w &&& 0xFFFF#16 = row → w = row := fun _ hrow => BitVec.and_allOnes.symm.trans hrow
  cases i with
  | wrData _ => exact ⟨.wrData (w.setWidth 8), hwrite _ h rfl⟩
  | wrStatus _ => exact ⟨.wrStatus (w.setWidth 8), hwrite _ h rfl⟩
  | wrConfig _ => exact ⟨.wrConfig (w.setWidth 8), hwrite _ h rfl⟩
  | wrCs _ => exact ⟨.wrCs (w.setWidth 8), hwrite _ h rfl⟩
  | rdData => exact ⟨.rdData, hread _ h⟩
  | rdStatus => exact ⟨.rdStatus, hread _ h⟩
  | rdConfig => exact ⟨.rdConfig, hread _ h⟩
  | rdCs => exact ⟨.rdCs, hread _ h⟩

/-- An operation's word lies in the operation's row of the opcode map. -/
theorem encode_matches : ∀ i : Instr, encode i &&& i.tableMask = i.tableMatch
  | .wrData v => (Laws.TableRow.wrData v).1
  | .rdData => Laws.TableRow.rdData.1
  | .rdStatus => Laws.TableRow.rdStatus.1
  | .wrStatus v => (Laws.TableRow.wrStatus v).1
  | .wrConfig v => (Laws.TableRow.wrConfig v).1
  | .rdConfig => Laws.TableRow.rdConfig.1
  | .wrCs v => (Laws.TableRow.wrCs v).1
  | .rdCs => Laws.TableRow.rdCs.1

/-- Settles O4: a word in a row is an operation's word and decodes; a word that decodes is an operation's word and lies
in that operation's row. -/
theorem refusedWordsMatchNoRow : Obligations.RefusedWordsMatchNoRow := by
  intro w
  constructor
  · rintro ⟨c, hc⟩ i hi
    obtain ⟨j, rfl⟩ := exists_encode_of_matches hi
    cases hc.symm.trans (decode_encode j)
  · intro hrows
    cases hd : decode w with
    | error c => exact ⟨c, rfl⟩
    | ok i =>
      obtain rfl := eq_encode_of_decode hd
      exact absurd (encode_matches i) (hrows i)

/-- Settles O1: the eight legal words are the words of their operations. -/
theorem knownWordsDecode : Obligations.KnownWordsDecode :=
  ⟨decode_encode (.wrData 0xFF#8), decode_encode .rdData, decode_encode .rdStatus, decode_encode (.wrStatus 0x00#8),
    decode_encode (.wrConfig 0x03#8), decode_encode .rdConfig, decode_encode (.wrCs 0x01#8), decode_encode .rdCs,
    by decide, by decide, by decide, by decide⟩

end Sys2Proof
end

section
/-! SUPPORT. The fields of a CONFIG value, bit by bit (spec 30 R78). -/

namespace Sys2Proof.Machine

/-- Settles O25: EN and MASTER and the startup value by definition, SPEED and the reserved bits bit by bit. -/
theorem configFieldsBitByBit : Obligations.ConfigFieldsBitByBit := by
  intro P v
  refine ⟨rfl, rfl, fun k hk => ?_, fun k hk => ?_, rfl⟩
  · simp [cfgSpeed, hk]
  · have hnamed : (cfgNamed P).getLsbD k =
        (k == P.enBit.val || k == P.masterBit.val || k == P.speedLsb.val || k == P.speedLsb.val + 1) := by
      rw [getLsbD_cfgNamed P k hk, Bool.eq_iff_iff]
      simp only [Bool.or_eq_true, Bool.and_eq_true, decide_eq_true_eq, beq_iff_eq]
      omega
    rw [cfgRsvd, BitVec.getLsbD_and, BitVec.getLsbD_not, hnamed, decide_eq_true hk, Bool.true_and]

end Sys2Proof.Machine
end

section
/-! SUPPORT. The pseudo-operations: their words, and the turn that polls (spec 30 R81; log entries 2, 18, 19). -/

namespace Sys2Proof.Machine

open Sys2Proof.Claims

variable {s : State} {rest : List HostAct}

/-- A poll turn issues its STATUS read, unless attach has failed. -/
theorem hostTurn_poll (h : s.script = .poll :: rest) : hostTurn s = issueTurn rest s (.next (pollTurn rest s)) := by
  simp only [hostTurn, h]

/-- While DONE is known a poll turn appends one STATUS read of it, and is over when DONE reads 1. -/
theorem pollTurn_of_done {d : Bool} (h : s.dev.done = some d) (rest : List HostAct) :
    ∃ n v, statusDone s.params v = d ∧ pollTurn rest s =
      { s with hist := s.hist ++ [.busR 0x4#4 v], draws := n, script := if d then rest else s.script } := by
  obtain ⟨n, hread, hdone⟩ := rdStatus_frame s
  rw [readDone_some h] at hdone
  refine ⟨n, (rdStatus s).1, hdone, ?_⟩
  simp only [pollTurn, hread, hdone]
  cases d <;> rfl

/-- The pseudo-operations' words are those of the operations they issue. -/
theorem expandPseudo_words (P : Params) (b : Byte) :
    expandPseudo P (.xfer b) = [.bus (writeWord 0x1000#16 b), .poll, .bus 0x0000#16] ∧
    expandPseudo P .csOn = [.bus 0x1C01#16] ∧ expandPseudo P .csOff = [.bus 0x1C00#16] ∧
    expandPseudo P .cfgInit = [.bus (writeWord 0x1800#16 (configInit P))] := by
  simp only [expandPseudo, encode_eq_writeWord]
  exact ⟨rfl, rfl, rfl, rfl⟩

/-- Settles O60: the words are those of the operations issued; the poll turn is refused after a failed attach, and is
`pollTurn` otherwise. -/
theorem pseudoOperationsExpand : Obligations.PseudoOperationsExpand := by
  refine ⟨expandPseudo_words, fun s rest hlive hdue hscript hatt => ?_,
    fun s rest d hlive hdue hscript hatt hdone => ?_⟩
  · rw [step_host hlive hdue, hostTurn_poll (s := s.tick) hscript, issueTurn_of_failed (s := s.tick) hatt]
    rfl
  · obtain ⟨n, v, hv, hturn⟩ := pollTurn_of_done (s := s.tick) hdone rest
    have hstep : step s = .next (pollTurn rest s.tick) := by
      rw [step_host hlive hdue, hostTurn_poll (s := s.tick) hscript, issueTurn_of_reachable (s := s.tick) hatt]
    exact ⟨_, v, hstep.trans (congrArg _ hturn), rfl, hv, rfl, rfl⟩

end Sys2Proof.Machine
end

section
/-! SUPPORT. A bus operation in a live state: the fault it takes, or the state it completes with; and what it records in
either case (spec 40 R100, R101). -/

namespace Sys2Proof.Machine

open Sys2Proof.Claims

variable {s t : State}

/-- In a live state an operation turned away takes its fault, with the word of its row, and does nothing else. -/
theorem exec_of_error {i : Instr} {c : FaultCode} (hlive : s.live = true) (h : busResult i s = .error c) :
    exec i s = .next (faulted s c (writeWord i.tableMatch i.request.wdata)) := by
  rw [exec_of_live i hlive, h, commit_error, raiseFault_of_none ((live_iff s).1 hlive).1, encode_eq_writeWord]
  rfl

/-- In a live state an operation that is accepted answers its own result. -/
theorem exec_of_ok {i : Instr} (hlive : s.live = true) (h : busResult i s = .ok t) : exec i s = .next t := by
  rw [exec_of_live i hlive, h, commit_ok]

/-- A fault or a refusal ends the live states. -/
theorem not_live_of_stopped (h : s.dev.fault ≠ none ∨ s.dev.refused = true) : s.live = false := by
  rcases h with hfault | hrefused
  · simp [State.live, hfault]
  · simp [State.live, hrefused]

/-- A final state is live. -/
theorem live_of_final (h : s.final = true) : s.live = true := by
  rw [State.final, Bool.and_eq_true] at h
  exact h.2

/-- A bus operation keeps the record of the fault, or changes nothing but it. -/
theorem BusCase.fault_kept_or_faulted {i : Instr} (h : BusCase i s t) :
    t.dev.fault = s.dev.fault ∨ ∃ c, t = faulted s c (encode i) := by
  cases h with
  | fault c h => exact .inr ⟨c, h⟩
  | rdData _ _ _ _ h => subst h; exact .inl (afterDataRead_fault _ _)
  | wrData _ _ _ _ h | rdStatus _ _ _ h | wrConfig _ _ _ _ _ h | rdConfig _ _ _ h | wrCs _ _ _ _ h
  | rdCs _ _ _ h => subst h; exact .inl rfl

/-- Settles O9: next states come from live states only; an operation that answers a fault from one has not kept the
empty record, so it changed nothing else. -/
theorem faultsStopEverythingAndChangeNothing : Obligations.FaultsStopEverythingAndChangeNothing := by
  refine ⟨fun s hstopped => ?_, fun i s t hexec hfault => ?_⟩
  · have hdead : s.live ≠ true := Bool.eq_false_iff.1 (not_live_of_stopped hstopped)
    exact ⟨fun t h => hdead (step_cases h).1, fun i t h => hdead (exec_next h).1,
      Bool.eq_false_iff.2 fun h => hdead (live_of_final h)⟩
  · have hnone : s.dev.fault = none := ((live_iff s).1 (exec_next hexec).1).1
    rcases (exec_cases hexec).fault_kept_or_faulted with hkept | ⟨c, rfl⟩
    · exact absurd (hkept.trans hnone) hfault
    · exact ⟨rfl, rfl⟩

/-- Settles O10: a fault is excluded, the start of an exchange is no bus event, and every other completion appends its
bus event alone. -/
theorem oneBusEventPerOperation : Obligations.OneBusEventPerOperation := by
  intro i s t hexec hfault
  cases exec_cases hexec with
  | fault c h => subst h; cases hfault
  | wrData v hi _ _ h =>
    subst hi
    rw [h, beginExchange_eq]
    exact ⟨_, v, rfl, rfl⟩
  | rdData _ r hi _ h | rdStatus _ r hi h | rdConfig _ r hi h | rdCs _ r hi h =>
    subst hi h
    exact ⟨_, r, rfl, rfl⟩
  | wrConfig v hi _ _ _ h | wrCs v hi _ _ h =>
    subst hi h
    exact ⟨_, v, rfl, rfl⟩

/-- Settles O5: the decoder's checks in order give the fault, and a word it turns away takes that fault alone. -/
theorem illegalRequestsFaultByName : Obligations.IllegalRequestsFaultByName := by
  intro s w hlive
  have hdecode := decodeChecksInOrder w
  refine ⟨fun hrsv => ?_, fun hrsv hsize => ?_, fun hrsv hsize hoff => ?_, fun hrsv hsize hoff hread hdata => ?_⟩
    <;> refine runRequest_of_illegal hlive (hdecode.trans ?_)
  · rw [if_pos hrsv]
  · rw [if_neg (Bool.eq_false_iff.1 hrsv), if_pos hsize]
  · rw [if_neg (Bool.eq_false_iff.1 hrsv), if_neg (not_not.2 hsize), if_pos hoff]
  · rw [if_neg (Bool.eq_false_iff.1 hrsv), if_neg (not_not.2 hsize), if_neg (not_not.2 hoff), if_pos ⟨hread, hdata⟩]

end Sys2Proof.Machine
end

section
/-! SUPPORT. The operations on DATA, outcome by outcome (spec 40 R102, R104). -/

namespace Sys2Proof.Machine

open Sys2Proof.Claims

variable {s : State}

/-- A DATA write while busy is turned away. -/
theorem wrData_of_busy {b : Byte} (he : s.dev.eng = .busy b) (v : Byte) : wrData v s = .error .dataWrBusy := by
  simp only [wrData, he]

/-- A DATA write in an idle block that is not configured is turned away. -/
theorem wrData_of_not_configured (he : s.dev.eng = .idle) (hc : ¬ Configured s) (v : Byte) :
    wrData v s = .error .notConfigured := by
  cases hcfg : s.dev.cfg with
  | none => simp only [wrData, he, hcfg]
  | some c =>
    have hbits : ¬ (cfgEn s.params c && cfgMaster s.params c) = true := fun h =>
      hc ⟨c, hcfg, (Bool.and_eq_true_iff.1 h).1, (Bool.and_eq_true_iff.1 h).2⟩
    simp only [wrData, he, hcfg, if_neg hbits]

/-- Settles O16: the two faults in the order of the checks, then the exchange as `beginExchange_eq` gives it. -/
theorem wrDataStartsExchangeOrFaults : Obligations.WrDataStartsExchangeOrFaults := by
  intro s v hlive
  refine ⟨fun ⟨b, he⟩ => exec_of_error hlive (wrData_of_busy he v),
    fun he hc => exec_of_error hlive (wrData_of_not_configured he hc v), fun he hc => ?_⟩
  have hexec := exec_of_ok (i := .wrData v) hlive (wrData_of_configured v he hc)
  rw [beginExchange_eq] at hexec
  exact ⟨_, hexec, rfl, rfl, (exec_cases hexec).hostSame⟩

/-- A DATA read while busy is turned away. -/
theorem rdData_of_busy {b : Byte} (he : s.dev.eng = .busy b) : rdData s = .error .dataRdBusy := by
  simp only [rdData, he]

/-- Without a received byte behind DONE a DATA read gives a draw. -/
theorem dataReadValue_of_not_ready (h : s.dev.done ≠ some true ∨ s.dev.rx = none) :
    dataReadValue s = (Config.draw s.draws, s.takeChoice) := by
  unfold dataReadValue
  split
  · next hdone =>
    rw [h.resolve_left (not_not.2 hdone)]
    rfl
  · rfl

/-- The device after a DATA read: DONE cleared where the parameter says so, everything else kept. -/
theorem afterDataRead_eq (P : Params) (d : Device) :
    d.afterDataRead P = { d with done := if P.doneClearedByDataRead then some false else d.done } := by
  unfold Device.afterDataRead
  split <;> rfl

/-- A DATA read of a live, idle block whose value is `r`, obtained with the free choices up to `n`. -/
theorem exec_rdData_of_value {r : Byte} {n : Nat} (hlive : s.live = true) (he : s.dev.eng = .idle)
    (hr : dataReadValue s = (r, { s with draws := n })) :
    exec .rdData s = .next
      { s with
        dev := { s.dev with done := if s.params.doneClearedByDataRead then some false else s.dev.done }
        hist := s.hist ++ [.busR 0x0#4 r]
        draws := n } := by
  refine exec_of_ok hlive ?_
  rw [← afterDataRead_eq]
  simp only [busResult, rdData, he, hr]
  rfl

/-- Settles O17: the busy fault, the received byte where one is behind DONE, a draw otherwise. -/
theorem rdDataReturnsReceivedByteOrFaults : Obligations.RdDataReturnsReceivedByteOrFaults := by
  intro s hlive
  refine ⟨fun ⟨b, he⟩ => exec_of_error hlive (by rw [busResult, rdData_of_busy he]; rfl), fun he => ?_⟩
  by_cases hready : s.dev.done = some true ∧ ∃ x, s.dev.rx = some x
  · obtain ⟨hdone, x, hrx⟩ := hready
    have hexec := exec_rdData_of_value hlive he (dataReadValue_ready hdone hrx)
    refine ⟨_, x, hexec, fun y _ hy => Option.some.inj (hrx.symm.trans hy), fun hnot => ?_, rfl, rfl,
      (exec_cases hexec).hostSame⟩
    exact absurd hdone (hnot.resolve_right (by simp [hrx]))
  · have hdrawn : s.dev.done ≠ some true ∨ s.dev.rx = none := by
      rwa [not_and_or, ← Option.ne_none_iff_exists', not_not] at hready
    have hexec := exec_rdData_of_value hlive he (dataReadValue_of_not_ready hdrawn)
    exact ⟨_, _, hexec, fun x hdone hrx => absurd ⟨hdone, x, hrx⟩ hready, fun _ => ⟨rfl, rfl⟩, rfl, rfl,
      (exec_cases hexec).hostSame⟩

/-- Settles O34: the first read takes the received byte; the second finds DONE still set, or cleared by the first. -/
theorem repeatedDataReads : Obligations.RepeatedDataReads := by
  intro s x hlive he hdone hrx
  have hfirst := exec_rdData_of_value hlive he (dataReadValue_ready hdone hrx)
  cases hclear : s.params.doneClearedByDataRead with
  | false =>
    simp only [hclear, Bool.false_eq_true, if_false] at hfirst
    have hsecond := exec_rdData_of_value (s := { s with hist := s.hist ++ [.busR 0x0#4 x] }) hlive he
      (dataReadValue_ready hdone hrx)
    exact ⟨_, _, hfirst, hsecond, fun _ => List.append_assoc _ _ _, nofun⟩
  | true =>
    simp only [hclear, if_true] at hfirst
    have hsecond := exec_rdData_of_value
      (s := { s with dev := { s.dev with done := some false }, hist := s.hist ++ [.busR 0x0#4 x] }) hlive he
      (dataReadValue_of_not_ready (.inl (by simp)))
    exact ⟨_, _, hfirst, hsecond, nofun, fun _ => ⟨List.append_assoc _ _ _, rfl⟩⟩

end Sys2Proof.Machine
end

section
/-! SUPPORT. The operations on STATUS, CONFIG and CS, outcome by outcome (spec 40 R106 to R113). -/

namespace Sys2Proof.Machine

open Sys2Proof.Claims

variable {s : State}

/-- A STATUS read of a live state in which DONE reads as `bit`, obtained with the free choices up to `n`. -/
theorem exec_rdStatus_of_readDone {bit : Bool} {n : Nat} (hlive : s.live = true)
    (h : readDone s = (bit, { s with draws := n })) :
    exec .rdStatus s = .next
      { s with
        hist := s.hist ++ [.busR 0x4#4 (statusByte s.params (Config.draw n) bit)]
        draws := n + 1 } := by
  refine exec_of_ok hlive ?_
  simp only [busResult, rdStatus, h]
  rfl

/-- Every bit of a STATUS byte but DONE is the bit it was made with. -/
theorem getLsbD_statusByte_of_ne (P : Params) (other : Byte) (bit : Bool) (k : Nat) (hk : k < 8)
    (hne : k ≠ P.statusDoneBit.val) : (statusByte P other bit).getLsbD k = other.getLsbD k := by
  rw [statusByte, getLsbD_setBit _ _ _ _ hk, if_neg hne]

/-- Settles O18: DONE reads as the flag or as a draw of its own, and the other bits are those of the next draw. -/
theorem rdStatusReadsDone : Obligations.RdStatusReadsDone := by
  intro s hlive
  cases hdone : s.dev.done with
  | some d =>
    have hexec := exec_rdStatus_of_readDone hlive (readDone_some hdone)
    refine ⟨_, _, hexec, fun e he => ?_, nofun, rfl, rfl, (exec_cases hexec).hostSame⟩
    obtain rfl := Option.some.inj he
    exact ⟨statusDone_statusByte _ _ _, rfl, getLsbD_statusByte_of_ne _ _ _⟩
  | none =>
    have hexec := exec_rdStatus_of_readDone hlive (readDone_none hdone)
    exact ⟨_, _, hexec, nofun, fun _ => ⟨statusDone_statusByte _ _ _, rfl, getLsbD_statusByte_of_ne _ _ _⟩, rfl, rfl,
      (exec_cases hexec).hostSame⟩

/-- Settles O19: the operation is turned away whatever it writes. -/
theorem wrStatusAlwaysFaults : Obligations.WrStatusAlwaysFaults :=
  fun _ v hlive => exec_of_error (i := .wrStatus v) hlive rfl

/-- A CONFIG write while busy is turned away. -/
theorem wrConfig_of_busy {b : Byte} (he : s.dev.eng = .busy b) (v : Byte) : wrConfig v s = .error .cfgBusy := by
  simp only [wrConfig, he]

/-- A CONFIG write with a reserved bit set is turned away. -/
theorem wrConfig_of_reserved {v : Byte} (he : s.dev.eng = .idle) (hr : cfgRsvd s.params v ≠ 0x00#8) :
    wrConfig v s = .error .cfgReserved := by
  simp only [wrConfig, he, if_pos hr]

/-- A CONFIG write without a reserved bit, but with another speed than the fastest, is turned away. -/
theorem wrConfig_of_speed {v : Byte} (he : s.dev.eng = .idle) (hr : cfgRsvd s.params v = 0x00#8)
    (hs : cfgSpeed s.params v ≠ s.params.speedFastest) : wrConfig v s = .error .cfgSpeed := by
  simp only [wrConfig, he, if_neg (not_not.2 hr), if_pos hs]

/-- Settles O20: the three faults in the order of the checks, then the value is stored. -/
theorem wrConfigStoresOrFaults : Obligations.WrConfigStoresOrFaults := by
  intro s v hlive
  refine ⟨fun ⟨b, he⟩ => exec_of_error hlive (wrConfig_of_busy he v),
    fun he hr => exec_of_error (i := .wrConfig v) hlive (wrConfig_of_reserved he hr),
    fun he hr hs => exec_of_error (i := .wrConfig v) hlive (wrConfig_of_speed he hr hs), fun he hr hs => ?_⟩
  have hexec := exec_of_ok (i := .wrConfig v) hlive (wrConfig_of_legal he hr hs)
  exact ⟨_, hexec, rfl, rfl, (exec_cases hexec).hostSame⟩

/-- Settles O21: the read is accepted in every state, and takes one free choice. -/
theorem rdConfigReturnsDraw : Obligations.RdConfigReturnsDraw := by
  intro s hlive
  have hexec := exec_of_ok (i := .rdConfig) hlive rfl
  exact ⟨_, hexec, rfl, rfl, rfl, (exec_cases hexec).hostSame⟩

/-- A CS write while busy is turned away. -/
theorem wrCs_of_busy {b : Byte} (he : s.dev.eng = .busy b) (v : Byte) : wrCs v s = .error .csBusy := by
  simp only [wrCs, he]

/-- The legal values of CS are 0x00 and 0x01. -/
theorem csValueLegal_iff (v : Byte) : csValueLegal v = true ↔ v = 0x00#8 ∨ v = 0x01#8 := by
  simp only [csValueLegal, Bool.or_eq_true, beq_iff_eq]

/-- A CS write of another value than 0x00 and 0x01 is turned away. -/
theorem wrCs_of_illegal {v : Byte} (he : s.dev.eng = .idle) (hv : ¬ csValueLegal v = true) :
    wrCs v s = .error .csValue := by
  simp only [wrCs, he, if_neg hv]

/-- A CS write that is accepted. -/
theorem wrCs_of_legal {v : Byte} (he : s.dev.eng = .idle) (hv : csValueLegal v = true) :
    wrCs v s = .ok
      { s with
        dev := { s.dev with cs := some (levelOfBit (v.getLsbD 0)) }
        hist := s.hist ++ [.busW 0xC#4 v] } := by
  simp only [wrCs, he, if_pos hv]
  rfl

/-- The level of bit 0 of a legal CS value: high for 0x01, low for 0x00. -/
theorem levelOfBit_of_legal {v : Byte} (hv : v = 0x00#8 ∨ v = 0x01#8) :
    levelOfBit (v.getLsbD 0) = if v = 0x01#8 then .high else .low := by
  obtain rfl | rfl := hv <;> rfl

/-- Settles O22: the two faults in the order of the checks, then the line takes the level of bit 0. -/
theorem wrCsDrivesLineOrFaults : Obligations.WrCsDrivesLineOrFaults := by
  intro s v hlive
  refine ⟨fun ⟨b, he⟩ => exec_of_error hlive (wrCs_of_busy he v), fun he h0 h1 => ?_, fun he hv => ?_⟩
  · have hillegal : ¬ csValueLegal v = true := fun h => ((csValueLegal_iff v).1 h).elim h0 h1
    exact exec_of_error (i := .wrCs v) hlive (wrCs_of_illegal he hillegal)
  · have hexec := exec_of_ok (i := .wrCs v) hlive (wrCs_of_legal he ((csValueLegal_iff v).2 hv))
    rw [levelOfBit_of_legal hv] at hexec
    exact ⟨_, hexec, rfl, rfl, (exec_cases hexec).hostSame⟩

/-- Settles O23: the read is accepted in every state, and takes one free choice. -/
theorem rdCsReturnsDraw : Obligations.RdCsReturnsDraw := by
  intro s hlive
  have hexec := exec_of_ok (i := .rdCs) hlive rfl
  exact ⟨_, hexec, rfl, rfl, rfl, (exec_cases hexec).hostSame⟩

end Sys2Proof.Machine
end

section
/-! SUPPORT. The engine's step: what it delivers, for any peer, and what the host then reads (spec 41 R141, R143, R145). -/

namespace Sys2Proof.Machine

open Sys2Proof.Claims

variable {s t : State}

/-- A DATA write that takes no fault was issued in a live, idle and configured block, and starts its exchange. -/
theorem wrData_accepted {v : Byte} (h : exec (.wrData v) s = .next t) (hfault : t.dev.fault = none) :
    s.live = true ∧ s.dev.eng = .idle ∧ Configured s ∧ t = beginExchange v s := by
  cases exec_cases h with
  | fault c ht => subst ht; cases hfault
  | wrData u hi he hc ht => cases hi; exact ⟨(exec_next h).1, he, hc, ht⟩
  | rdData _ _ hi | rdStatus _ _ hi | wrConfig _ hi | rdConfig _ _ hi | wrCs _ hi | rdCs _ _ hi => cases hi

/-- Settles O28: neither the checks of a DATA write nor the engine's step look at the level. -/
theorem chipSelectDoesNotGate : Obligations.ChipSelectDoesNotGate := by
  refine ⟨fun s t v c hexec hfault => ?_, fun p s b he => ?_⟩
  · obtain ⟨hlive, he, hc, _⟩ := wrData_accepted hexec hfault
    have haccepted := exec_of_ok (s := { s with dev := { s.dev with cs := c } }) (i := .wrData v) hlive
      (wrData_of_configured v he hc)
    rw [beginExchange_eq] at haccepted
    exact ⟨_, haccepted, ((live_iff s).1 hlive).1, rfl, rfl, rfl⟩
  · rw [engineCompleteWith_busy p he]
    exact ⟨_, s.draws, rfl, rfl, rfl, rfl, rfl⟩

/-- After the engine's step no exchange is in flight. -/
theorem engineCompleteWith_eng (peer : Peer) (s : State) : (engineCompleteWith peer s).dev.eng = .idle := by
  rcases eng_cases s with ⟨b, hb⟩ | hi
  · rw [engineCompleteWith_busy peer hb]
  · rw [engineCompleteWith_idle peer hi, hi]

/-- Settles O29: the step is the engine's when its end has come, and the engine's is `engineCompleteWith_busy`. -/
theorem engineCompletesExchange : Obligations.EngineCompletesExchange := by
  refine ⟨fun s b hlive he hdue => ?_, fun p s he => engineCompleteWith_idle p he⟩
  have hstep := step_engine hlive ((engineDue_iff s).2 ⟨⟨b, he⟩, hdue⟩)
  rw [engineComplete, engineCompleteWith_busy _ he] at hstep
  exact ⟨_, _, hstep, rfl, rfl, rfl, rfl, rfl, rfl, fun _ => rfl⟩

/-- While a received byte is behind DONE, a STATUS read gives DONE = 1 and keeps both, and a DATA read then gives that
byte. -/
theorem exec_rdStatus_rdData_of_ready {x : Byte} (hlive : s.live = true) (he : s.dev.eng = .idle)
    (hdone : s.dev.done = some true) (hrx : s.dev.rx = some x) :
    ∃ t u v, exec .rdStatus s = .next t ∧ exec .rdData t = .next u ∧ statusDone s.params v = true ∧
      adds s u [.busR 0x4#4 v, .busR 0x0#4 x] := by
  have hstatus := exec_rdStatus_of_readDone hlive (readDone_some hdone)
  exact ⟨_, _, _, hstatus, exec_rdData_of_value hlive he (dataReadValue_ready hdone hrx),
    statusDone_statusByte _ (Config.draw s.draws) _, List.append_assoc _ _ _⟩

/-- Settles O33: the engine's step leaves DONE set and the peer's byte behind it, which the two reads then find. -/
theorem completedExchangeDeliversPeerByte : Obligations.CompletedExchangeDeliversPeerByte := by
  intro p s b hlive he
  have hend := engineCompleteWith_busy p he
  have hlive' : (engineCompleteWith p s).live = true := by rw [hend]; exact hlive
  obtain ⟨t, u, v, hstatus, hdata, hv, hadds⟩ := exec_rdStatus_rdData_of_ready hlive' (by rw [hend]) (by rw [hend])
    (x := p s.hist b s.dev.cs s.draws) (by rw [hend])
  rw [hend] at hv hadds
  exact ⟨t, u, v, hstatus, hdata, hv, hadds.trans (List.append_assoc _ _ _)⟩

end Sys2Proof.Machine
end

section
/-! SUPPORT. An exchange in flight, from one turn to the next: every turn of the host but the reset of the block leaves
it and DONE as they are, and starts one only with DONE clear (spec 10 R24, 40 R102, R104, 41 R141, R142). -/

namespace Sys2Proof.Machine

variable {s t : State} {d e : Device}

/-- From the device `d` to the device `e` an exchange in flight stays so with DONE as it was, and one is started only
with DONE clear. -/
structure EngineUndisturbed (d e : Device) : Prop where
  keeps : ∀ b, d.eng = .busy b → e.eng = .busy b ∧ e.done = d.done
  starts : d.eng = .idle → e.busyClear = true

/-- An idle engine has no exchange for DONE to be clear in. -/
theorem busyClear_of_idle (h : d.eng = .idle) : d.busyClear = true :=
  (busyClear_iff d).2 fun _ hb => absurd (h.symm.trans hb) nofun

/-- A turn that writes neither the engine nor DONE. -/
theorem EngineUndisturbed.of_same (heng : e.eng = d.eng) (hdone : e.done = d.done) : EngineUndisturbed d e :=
  ⟨fun _ hb => ⟨heng.trans hb, hdone⟩, fun hi => busyClear_of_idle (heng.trans hi)⟩

/-- A turn taken only while the engine is idle. -/
theorem EngineUndisturbed.of_idle (hi : d.eng = .idle) (h : e.busyClear = true) : EngineUndisturbed d e :=
  ⟨fun _ hb => absurd (hi.symm.trans hb) nofun, fun _ => h⟩

/-- What is kept and what is started leave DONE clear in every exchange. -/
theorem EngineUndisturbed.busyClear (h : EngineUndisturbed d e) (hd : d.busyClear = true) : e.busyClear = true := by
  cases hi : d.eng with
  | idle => exact h.starts hi
  | busy b => exact (busyClear_iff e).2 fun _ _ => (h.keeps b hi).2.trans ((busyClear_iff d).1 hd b hi)

/-- No bus operation disturbs an exchange: those that write the engine or DONE are accepted only without one. -/
theorem BusCase.engineUndisturbed {i : Instr} (h : BusCase i s t) : EngineUndisturbed s.dev t.dev := by
  cases h with
  | fault _ h | rdStatus _ _ _ h | wrConfig _ _ _ _ _ h | rdConfig _ _ _ h | wrCs _ _ _ _ h | rdCs _ _ _ h =>
    subst h; exact .of_same rfl rfl
  | wrData _ _ he _ h => subst h; exact .of_idle he rfl
  | rdData _ _ _ he h => subst h; exact .of_idle he (busyClear_of_idle ((afterDataRead_eng _ _).trans he))

/-- No transition of the protocol FSM disturbs an exchange: EMIT and READ fault while one is in flight. -/
theorem FsmCase.engineUndisturbed (h : FsmCase s t) : EngineUndisturbed s.dev t.dev := by
  cases h with
  | idle _ h | badShape _ _ h | badWidth _ _ _ h | checked _ _ _ h | emitFault _ _ _ h | pollDone _ _ _ _ _ h
  | pollExpired _ _ _ _ _ _ h | pollAgain _ _ _ _ _ _ h | readFault _ _ h | stored _ h | finished _ h =>
    subst h; exact .of_same rfl rfl
  | emitted _ he _ h => subst h; exact .of_idle he rfl
  | gotByte _ _ he h => subst h; exact .of_idle he (busyClear_of_idle ((afterDataRead_eng _ _).trans he))

/-- `attach` writes neither the engine nor DONE. -/
theorem AttachCase.engineUndisturbed (h : AttachCase s t) : EngineUndisturbed s.dev t.dev := by
  cases h with
  | turnedAway _ h | aborted _ h | fault _ _ _ h | attached _ _ _ _ _ h => subst h; exact .of_same rfl rfl

/-- A direct call of `configure` writes neither the engine nor DONE. -/
theorem ConfigureCase.engineUndisturbed (h : ConfigureCase s t) : EngineUndisturbed s.dev t.dev := by
  cases h with
  | turnedAway _ h | fault _ _ _ h | written _ _ _ _ _ h => subst h; exact .of_same rfl rfl

/-- The host's other calls write neither the engine nor DONE. -/
theorem CallCase.engineUndisturbed (h : CallCase s t) : EngineUndisturbed s.dev t.dev := by
  cases h with
  | turnedAway _ h | begun _ _ _ h | csFault _ _ _ _ _ h | csDriven _ _ _ _ h => subst h; exact .of_same rfl rfl

/-- Every turn of the host disturbs no exchange, unless it is the reset of the block. -/
theorem HostCase.reset_or_engineUndisturbed (h : HostCase s t) :
    (s.script.head? = some .reset ∧ t.dev = Device.reset) ∨ EngineUndisturbed s.dev t.dev := by
  cases h with
  | reset _ hs h => subst h; exact .inl ⟨by rw [hs]; rfl, rfl⟩
  | request _ _ _ _ _ _ h => exact .inr h.engineUndisturbed
  | fsm _ _ h => exact .inr h.engineUndisturbed
  | attach _ _ _ h => exact .inr h.engineUndisturbed
  | configure _ _ h => exact .inr h.engineUndisturbed
  | call _ _ _ h => exact .inr h.engineUndisturbed
  | badRequest _ _ _ _ _ _ h | waited _ _ _ h | poll _ _ _ _ _ _ _ _ h | reload _ _ _ h =>
    subst h; exact .inr (.of_same rfl rfl)

/-- Settles O30: the engine's step and a reset leave the engine idle, and every other turn leaves an exchange in flight
and DONE alone. -/
theorem busyMeansDoneClear : Obligations.BusyMeansDoneClear := by
  refine ⟨rfl, fun s t hstep hs => ?_, fun s t b hstep hb hdue hreset => ?_⟩
  · obtain ⟨hlive, ⟨_, rfl⟩ | ⟨_, hturn⟩⟩ := step_cases hstep
    · exact busyClear_of_idle (engineCompleteWith_eng _ s)
    · obtain ⟨_, hdev⟩ | hkept := (hostTurn_cases (s := s.tick) hlive hturn).reset_or_engineUndisturbed
      · rw [hdev]; rfl
      · exact hkept.busyClear hs
  · obtain ⟨hlive, ⟨hnow, _⟩ | ⟨_, hturn⟩⟩ := step_cases hstep
    · cases hdue.symm.trans hnow
    · obtain ⟨hhead, _⟩ | hkept := (hostTurn_cases (s := s.tick) hlive hturn).reset_or_engineUndisturbed
      · exact absurd hhead hreset
      · exact hkept.keeps b hb

/-- An operation turned away records its fault with its own request word. -/
theorem fault_of_exec_error {i : Instr} {c : FaultCode} (h : exec i s = .next t) (hr : busResult i s = .error c) :
    t.dev.fault = some ⟨c, encode i⟩ := by
  obtain rfl := Host.Outcome.next.inj (h.symm.trans (exec_of_error (exec_next h).1 hr))
  rw [encode_eq_writeWord]
  rfl

/-- Settles O31: no bus operation disturbs an exchange, and the four that need an idle engine take their busy fault. -/
theorem noOperationCancelsAnExchange : Obligations.NoOperationCancelsAnExchange := by
  intro i s t b hexec hb
  refine ⟨((exec_cases hexec).engineUndisturbed.keeps b hb).1, ?_, ?_, ?_, ?_⟩
  · rintro v rfl
    exact fault_of_exec_error hexec (wrData_of_busy hb v)
  · rintro v rfl
    exact fault_of_exec_error hexec (wrConfig_of_busy hb v)
  · rintro v rfl
    exact fault_of_exec_error hexec (wrCs_of_busy hb v)
  · rintro rfl
    exact fault_of_exec_error hexec (by rw [busResult, rdData_of_busy hb]; rfl)

end Sys2Proof.Machine
end

section
/-! SUPPORT. `configure`: the CONFIG write of the startup byte, which legal parameters and an idle engine let through
(spec 42 R160, R161). -/

namespace Sys2Proof.Machine

open Sys2Proof.Claims

variable {s : State}

/-- Under legal parameters the startup byte is accepted by an idle block (40 R110). -/
theorem wrConfig_configInit (hwf : s.params.wf = true) (he : s.dev.eng = .idle) :
    wrConfig (configInit s.params) s =
      .ok { s with
            dev := { s.dev with cfg := some (configInit s.params) }
            hist := s.hist ++ [.busW Reg.config.offset (configInit s.params)] } := by
  obtain ⟨hen, hmaster⟩ := outsideSpeed_of_wf hwf
  exact wrConfig_of_legal he (cfgRsvd_configInit _) (cfgSpeed_configInit hen hmaster)

/-- Under its precondition `configure` commits its CONFIG write, whatever that answers. -/
theorem callConfigure_of_mapped (ha : s.fsm.att = .unattached) (hh : s.fsm.handle ≠ none) :
    callConfigure s = commit (.wrConfig (configInit s.params)) s (configure s) :=
  if_pos (by simp [ha, Option.isSome_iff_ne_none, hh])

/-- Without its precondition `configure` is refused. -/
theorem callConfigure_of_not_mapped (h : s.fsm.att ≠ .unattached ∨ s.fsm.handle = none) :
    callConfigure s = s.refuse .precondition :=
  if_neg (by simpa [imp_iff_not_or] using h)

/-- `configure` in an idle block with legal parameters: the one CONFIG write and its event. -/
theorem configure_of_idle (hwf : s.params.wf = true) (he : s.dev.eng = .idle) :
    configure s =
      .ok { s with
            dev := { s.dev with cfg := some (configInit s.params) }
            hist := s.hist ++ [.busW Reg.config.offset (configInit s.params), .cfgDone] } := by
  simp [configure, wrConfig_configInit hwf he, State.emit]

/-- Settles O35: the call commits `configure`, whose write legal parameters let through, or is refused. -/
theorem configureWritesOnceOrIsRefused : Obligations.ConfigureWritesOnceOrIsRefused := by
  refine fun s => ⟨fun ha hh he hwf => ?_, callConfigure_of_not_mapped⟩
  rw [callConfigure_of_mapped ha hh, configure_of_idle hwf he]
  exact ⟨rfl, rfl, rfl, rfl, rfl, fun _ => rfl⟩

end Sys2Proof.Machine
end

section
/-! SUPPORT. The turns to come while the block is driven by the protocol alone, and that none of them writes CONFIG once
the driver is attached (spec 30 R82, 42 R162). -/

namespace Sys2Proof.Machine

open Sys2Proof.Claims

variable {s t : State}

/-- Driven by the protocol alone, the next turn is a protocol turn and so are those after it. -/
theorem protocolOnly_cons {a : HostAct} {rest : List HostAct} (h : s.protocolOnly = true) (hs : s.script = a :: rest) :
    a.isProtocol = true ∧ rest.all HostAct.isProtocol = true := by
  simpa [State.protocolOnly, hs] using h

/-- From `s` to `t` CONFIG is kept, and the events appended hold no write of it. -/
def LeavesConfig (s t : State) : Prop :=
  t.dev.cfg = s.dev.cfg ∧ ∃ l, adds s t l ∧ ∀ v, Event.busW 0x8#4 v ∉ l

/-- CONFIG is left alone where it and the history are kept. -/
theorem LeavesConfig.of_same (hcfg : t.dev.cfg = s.dev.cfg) (hhist : t.hist = s.hist) : LeavesConfig s t :=
  ⟨hcfg, [], by rw [adds, hhist, List.append_nil], fun _ => List.not_mem_nil⟩

/-- CONFIG is left alone where it is kept and no write of it is among the events appended. -/
theorem LeavesConfig.of_append {l : List Event} (hcfg : t.dev.cfg = s.dev.cfg) (hhist : t.hist = s.hist ++ l)
    (hl : ∀ v, Event.busW 0x8#4 v ∉ l) : LeavesConfig s t :=
  ⟨hcfg, l, hhist, hl⟩

/-- The engine's step leaves CONFIG alone. -/
theorem leavesConfig_engineCompleteWith (peer : Peer) (s : State) : LeavesConfig s (engineCompleteWith peer s) := by
  rcases eng_cases s with ⟨b, hb⟩ | hi
  · rw [engineCompleteWith_busy peer hb]
    exact .of_append rfl rfl (by simp)
  · rw [engineCompleteWith_idle peer hi]
    exact .of_same rfl rfl

/-- No transition of the protocol FSM writes CONFIG. -/
theorem FsmCase.leavesConfig (h : FsmCase s t) : LeavesConfig s t := by
  cases h with
  | idle _ h | badShape _ _ h | checked _ _ _ h | emitFault _ _ _ h | readFault _ _ h | stored _ h =>
    subst h; exact .of_same rfl rfl
  | emitted _ _ _ h =>
    subst h
    rw [beginExchange_eq]
    exact .of_append rfl rfl (by simp [Reg.offset])
  | gotByte _ _ _ h => subst h; exact .of_append (afterDataRead_cfg _ _) rfl (by simp)
  | badWidth _ _ _ h | pollDone _ _ _ _ _ h | pollExpired _ _ _ _ _ _ h | pollAgain _ _ _ _ _ _ h | finished _ h =>
    subst h; exact .of_append rfl rfl (by simp)

/-- Once attached, `attach` is turned away and writes nothing. -/
theorem AttachCase.leavesConfig (h : AttachCase s t) (ha : s.fsm.att = .attached) : LeavesConfig s t := by
  cases h with
  | turnedAway _ h => subst h; exact .of_same rfl rfl
  | aborted hu _ | fault _ hu _ _ | attached _ hu _ _ _ _ => exact absurd (ha.symm.trans hu) nofun

/-- Once attached, a direct call of `configure` is turned away and writes nothing. -/
theorem ConfigureCase.leavesConfig (h : ConfigureCase s t) (ha : s.fsm.att = .attached) : LeavesConfig s t := by
  cases h with
  | turnedAway _ h => subst h; exact .of_same rfl rfl
  | fault _ hu _ _ | written hu _ _ _ _ _ => exact absurd (ha.symm.trans hu) nofun

/-- The host's other calls do not write CONFIG. -/
theorem CallCase.leavesConfig (h : CallCase s t) : LeavesConfig s t := by
  cases h with
  | turnedAway _ h | begun _ _ _ h | csFault _ _ _ _ _ h => subst h; exact .of_same rfl rfl
  | csDriven _ _ _ _ h => subst h; exact .of_append rfl rfl (by simp)

/-- Once attached, no protocol turn writes CONFIG. -/
theorem HostCase.leavesConfig (h : HostCase s t) (hp : s.protocolOnly = true) (ha : s.fsm.att = .attached) :
    LeavesConfig s t := by
  cases h with
  | request _ _ _ hs _ _ _ | badRequest _ _ _ hs _ _ _ | poll _ _ _ _ hs _ _ _ _ | reset _ hs _ =>
    exact absurd (protocolOnly_cons hp hs).1 nofun
  | fsm _ _ h => exact h.leavesConfig
  | attach _ _ _ h => exact h.leavesConfig ha
  | configure _ _ h => exact h.leavesConfig ha
  | call _ _ _ h => exact h.leavesConfig
  | waited _ _ _ h | reload _ _ _ h => subst h; exact .of_same rfl rfl

/-- Settles O57: a step is the engine's or a protocol turn, and neither writes CONFIG while attached. -/
theorem configWrittenOnlyByConfigure : Obligations.ConfigWrittenOnlyByConfigure := by
  intro s t hstep hp ha
  obtain ⟨hlive, ⟨_, rfl⟩ | ⟨_, hturn⟩⟩ := step_cases hstep
  · exact leavesConfig_engineCompleteWith Config.peer s
  · exact (hostTurn_cases (s := s.tick) hlive hturn).leavesConfig hp ha

end Sys2Proof.Machine
end

section
/-! SUPPORT. What `State.Clean` says beside the invariant, as one proposition about the turns to come, the device and
the protocol FSM, and what each protocol turn's update keeps of it (spec 42 R160, R162, 43 R173 to R176). -/

namespace Sys2Proof.Machine

/-- The block, with the parameters `P` and the turns `l` to come, is driven by the protocol alone and has not faulted:
an exchange is in flight only in POLL, which knows DONE, and READ finds DONE set. -/
structure Driven (P : Params) (l : List HostAct) (d : Device) (f : Fsm) : Prop where
  script : l.all HostAct.isProtocol = true
  limit : P.pollLimit = none
  poll : f.pc = .poll → d.done ≠ none
  read : f.pc = .read → d.done = some true
  idle : f.pc ≠ .poll → d.eng = .idle
  cfg : f.att = .attached → d.cfg = some (configInit P)
  fault : d.fault = none

/-- DONE is known in POLL and set in READ (43 R174, R175). -/
theorem pollOk_iff (s : State) :
    s.pollOk = true ↔ (s.fsm.pc = .poll → s.dev.done ≠ none) ∧ (s.fsm.pc = .read → s.dev.done = some true) := by
  cases hp : s.fsm.pc <;> simp [State.pollOk, hp, Option.isSome_iff_ne_none]

/-- Outside POLL no exchange is in flight (43 R173, R174). -/
theorem busyOnlyInPoll_iff (s : State) : s.busyOnlyInPoll = true ↔ (s.fsm.pc ≠ .poll → s.dev.eng = .idle) := by
  simp [State.busyOnlyInPoll, or_comm, imp_iff_not_or]

/-- While attached CONFIG holds the startup byte (42 R162). -/
theorem configuredOk_iff (s : State) :
    s.configuredOk = true ↔ (s.fsm.att = .attached → s.dev.cfg = some (configInit s.params)) := by
  simp [State.configuredOk, imp_iff_not_or]

/-- A clean state meets the invariant and is driven by the protocol alone. -/
theorem clean_iff (s : State) : s.Clean ↔ s.Inv ∧ Driven s.params s.script s.dev s.fsm := by
  simp only [State.Clean, pollOk_iff, busyOnlyInPoll_iff, configuredOk_iff]
  constructor
  · rintro ⟨hinv, hscript, hlimit, ⟨hpoll, hread⟩, hidle, hcfg, hfault⟩
    exact ⟨hinv, hscript, hlimit, hpoll, hread, hidle, hcfg, hfault⟩
  · rintro ⟨hinv, hscript, hlimit, hpoll, hread, hidle, hcfg, hfault⟩
    exact ⟨hinv, hscript, hlimit, ⟨hpoll, hread⟩, hidle, hcfg, hfault⟩

variable {P : Params} {l : List HostAct} {d : Device} {f : Fsm}

/-- The block right after reset, with protocol turns to come and the unbounded poll. -/
theorem driven_reset (hl : l.all HostAct.isProtocol = true) (hlimit : P.pollLimit = none) :
    Driven P l Device.reset Fsm.reset :=
  ⟨hl, hlimit, nofun, nofun, fun _ => rfl, nofun, rfl⟩

/-- Other protocol turns may be to come. -/
theorem Driven.setScript (h : Driven P l d f) {l' : List HostAct} (hl : l'.all HostAct.isProtocol = true) :
    Driven P l' d f :=
  { h with script := hl }

/-- The line and the refusal have no part in it. -/
theorem Driven.setOthers (h : Driven P l d f) (cs : Option Level) (refusal : Option RefusalCode) :
    Driven P l { d with cs := cs, refusal := refusal } f :=
  ⟨h.script, h.limit, h.poll, h.read, h.idle, h.cfg, h.fault⟩

/-- Outside POLL an FSM may go anywhere but to POLL and READ, attached only if it was. -/
theorem Driven.moveOn (h : Driven P l d f) (hp : f.pc ≠ .poll) {f' : Fsm} (hpoll : f'.pc ≠ .poll)
    (hread : f'.pc ≠ .read) (ha : f'.att = .attached → f.att = .attached) : Driven P l d f' :=
  { h with
    poll := (absurd · hpoll)
    read := (absurd · hread)
    idle := fun _ => h.idle hp
    cfg := fun hf => h.cfg (ha hf) }

/-- CHECK and STORE go on to FINISH or to EMIT (43 R172, R176). -/
theorem Driven.moveToNextByte (h : Driven P l d f) (hp : f.pc ≠ .poll) (last : Prop) [Decidable last] (i ret : Nat) :
    Driven P l d { f with i := i, ret := ret, pc := if last then .finish else .emit } := by
  refine h.moveOn hp ?_ ?_ id <;> split <;> nofun

/-- EMIT starts an exchange, with DONE clear, and polls (43 R173). -/
theorem Driven.emit (h : Driven P l d f) (v b : Byte) (polls : Nat) :
    Driven P l (d.startExchange v) { f with b := b, polls := polls, pc := .poll } :=
  ⟨h.script, h.limit, fun _ => nofun, nofun, (absurd rfl ·), h.cfg, h.fault⟩

/-- POLL that finds DONE set goes on to READ: by the invariant no exchange is then in flight (43 R174). -/
theorem Driven.pollDone {due : Option Nat} (h : Driven P l d f) (hdev : d.Ok P due) (hd : d.done = some true) :
    Driven P l d { f with pc := .read } := by
  refine ⟨h.script, h.limit, nofun, fun _ => hd, fun _ => ?_, h.cfg, h.fault⟩
  cases he : d.eng with
  | idle => rfl
  | busy b => exact absurd (hd.symm.trans (hdev.busy b he)) nofun

/-- POLL that finds DONE clear polls again (43 R174). -/
theorem Driven.pollAgain (h : Driven P l d f) (hp : f.pc = .poll) (polls : Nat) :
    Driven P l d { f with polls := polls, pc := .poll } :=
  ⟨h.script, h.limit, fun _ => h.poll hp, nofun, (absurd rfl ·), h.cfg, h.fault⟩

/-- READ may clear DONE, and goes on to STORE (43 R175). -/
theorem Driven.gotByte (h : Driven P l d f) (he : d.eng = .idle) (r : Byte) :
    Driven P l (d.afterDataRead P) { f with r := r, pc := .store } :=
  ⟨h.script, h.limit, nofun, nofun, fun _ => by simp [he], fun ha => by simpa using h.cfg ha, by simp [h.fault]⟩

/-- The engine's step sets DONE, which suits every state of the FSM (41 R141). -/
theorem Driven.completeExchange (h : Driven P l d f) (r : Byte) : Driven P l (d.completeExchange r) f :=
  ⟨h.script, h.limit, fun _ => nofun, fun _ => rfl, fun _ => rfl, h.cfg, h.fault⟩

/-- An attach that succeeds has written the startup byte to CONFIG (42 R160, 45 R210). -/
theorem Driven.attach (h : Driven P l d f) (he : d.eng = .idle) (x : Option Handle) :
    Driven P l { d with cfg := some (configInit P) } { f with att := .attached, pc := .idle, handle := x } :=
  ⟨h.script, h.limit, nofun, nofun, fun _ => he, fun _ => rfl, h.fault⟩

end Sys2Proof.Machine
end

section
/-! SUPPORT. A clean state stays clean in every kind of turn the protocol takes: no fault the turn could take is
possible there (spec 42 R160, 43 R173, R175, 44 R200). -/

namespace Sys2Proof.Machine

variable {s t : State}

/-- The startup byte is the configuration a DATA write needs (40 R102). -/
theorem configured_of_configInit (h : s.dev.cfg = some (configInit s.params)) : Configured s :=
  ⟨_, h, cfgEn_configInit _, cfgMaster_configInit _⟩

/-- A DONE that is known reads as it is (40 R106). -/
theorem done_of_readDone {d : Bool} (h : s.dev.done ≠ none) (hd : (readDone s).1 = d) : s.dev.done = some d := by
  obtain ⟨d', h'⟩ := Option.ne_none_iff_exists'.1 h
  rw [readDone_some h'] at hd
  exact h'.trans (congrArg some hd)

/-- Protocol turns put to come keep a clean state clean. -/
theorem State.Clean.setScript (hs : s.Clean) {l : List HostAct} (hl : l.all HostAct.isProtocol = true) :
    (s.setScript l).Clean := by
  obtain ⟨hinv, hd⟩ := (clean_iff s).1 hs
  exact (clean_iff _).2 ⟨hinv.setScript l, hd.setScript hl⟩

/-- Passing a host turn keeps a clean state clean. -/
theorem State.Clean.tick (hs : s.Clean) : s.tick.Clean := by
  obtain ⟨hinv, hd⟩ := (clean_iff s).1 hs
  exact (clean_iff _).2 ⟨hinv.tick, hd⟩

/-- A refusal is no fault. -/
theorem State.Clean.refuse (hs : s.Clean) (c : RefusalCode) : (s.refuse c).Clean := by
  obtain ⟨hinv, hd⟩ := (clean_iff s).1 hs
  exact (clean_iff _).2 ⟨hinv.refuse c, hd.setOthers _ _⟩

/-- The engine's step keeps a clean state clean, whatever the peer answers. -/
theorem State.Clean.engineCompleteWith (hs : s.Clean) (peer : Peer) : (engineCompleteWith peer s).Clean := by
  obtain ⟨hinv, hd⟩ := (clean_iff s).1 hs
  refine (clean_iff _).2 ⟨hinv.engineCompleteWith peer, ?_⟩
  rcases eng_cases s with ⟨b, hb⟩ | hi
  · rw [engineCompleteWith_busy peer hb]
    exact hd.completeExchange _
  · rw [engineCompleteWith_idle peer hi]
    exact hd

/-- A reload in IDLE keeps a clean state clean: the device it keeps has no exchange in flight (45 R217). -/
theorem State.Clean.reload (hs : s.Clean) (hp : s.fsm.pc = .idle) : (reload s).Clean := by
  obtain ⟨hinv, hd⟩ := (clean_iff s).1 hs
  obtain ⟨hwf, hdev, _, hmem⟩ := (inv_iff s).1 hinv
  exact (clean_iff _).2 ⟨(inv_iff _).2 ⟨hwf, hdev, Fsm.ok_reset, hmem⟩, hd.moveOn (by simp [hp]) nofun nofun nofun⟩

/-- Every transition of the protocol FSM keeps a clean state clean: EMIT finds the engine idle and CONFIG written, POLL
has no limit, and READ finds the engine idle. -/
theorem FsmCase.keeps_clean (h : FsmCase s t) (hs : s.Clean) : t.Clean := by
  obtain ⟨hinv, hd⟩ := (clean_iff s).1 hs
  obtain ⟨_, hdev, hfsm, _⟩ := (inv_iff s).1 hinv
  refine (clean_iff t).2 ⟨h.keeps_inv hinv, ?_⟩
  cases h with
  | idle _ h => subst h; exact hd
  | badShape _ _ h => subst h; exact hd.setOthers _ _
  | badWidth hp _ _ h | finished hp h => subst h; exact hd.moveOn (by simp [hp]) nofun nofun id
  | checked hp _ _ h => subst h; exact hd.moveToNextByte (by simp [hp]) _ _ _
  | stored hp h => subst h; exact hd.moveToNextByte (by simp [hp]) _ _ _
  | emitFault c hp hc _ =>
    have he : s.dev.eng = .idle := hd.idle (by simp [hp])
    have hcfg : Configured s := configured_of_configInit (hd.cfg (hfsm.att_of_running (by simp [hp])))
    exact absurd hc (by simp [he, hcfg])
  | emitted _ _ _ h => subst h; exact hd.emit _ _ _
  | pollDone n v hp hdone _ h => subst h; exact hd.pollDone hdev (done_of_readDone (hd.poll hp) hdone)
  | pollExpired n v _ _ _ hx _ => exact absurd ((pollExpired_iff _ _).1 hx) (by simp [hd.limit])
  | pollAgain n v hp _ _ _ h => subst h; exact hd.pollAgain hp _
  | readFault hp hb _ => exact absurd hb (by simp [hd.idle (by simp [hp])])
  | gotByte n _ he h => subst h; exact hd.gotByte he _

/-- `attach` keeps a clean state clean: in IDLE its CONFIG write is let through. -/
theorem AttachCase.keeps_clean (h : AttachCase s t) (hs : s.Clean) : t.Clean := by
  obtain ⟨hinv, hd⟩ := (clean_iff s).1 hs
  obtain ⟨hwf, _, hfsm, _⟩ := (inv_iff s).1 hinv
  refine (clean_iff t).2 ⟨h.keeps_inv hinv, ?_⟩
  cases h with
  | turnedAway _ h => subst h; exact hd.setOthers _ _
  | aborted ha h =>
    have hp : s.fsm.pc = .idle := hfsm.pc_of_unattached ha
    subst h; exact hd.moveOn (by simp [hp]) (by simp [hp]) (by simp [hp]) nofun
  | fault c ha hr _ =>
    have he : s.dev.eng = .idle := hd.idle (by simp [hfsm.pc_of_unattached ha])
    exact absurd (hr.symm.trans (wrConfig_configInit hwf he)) nofun
  | attached base _ he _ _ h => subst h; exact hd.attach he _

/-- A direct call of `configure` is turned away in a clean state, where no unattached driver has a handle. -/
theorem ConfigureCase.keeps_clean (h : ConfigureCase s t) (hs : s.Clean) : t.Clean := by
  obtain ⟨hinv, _⟩ := (clean_iff s).1 hs
  obtain ⟨_, _, hfsm, _⟩ := (inv_iff s).1 hinv
  cases h with
  | turnedAway _ h => subst h; exact hs.refuse _
  | fault _ ha hh _ | written ha hh _ _ _ _ => exact absurd (hfsm.handle_of_unattached ha) hh

/-- The host's other calls keep a clean state clean: in IDLE the CS write finds the engine idle. -/
theorem CallCase.keeps_clean (h : CallCase s t) (hs : s.Clean) : t.Clean := by
  obtain ⟨hinv, hd⟩ := (clean_iff s).1 hs
  refine (clean_iff t).2 ⟨h.keeps_inv hinv, ?_⟩
  cases h with
  | turnedAway _ h => subst h; exact hd.setOthers _ _
  | begun d _ hp h => subst h; exact hd.moveOn (by simp [hp]) nofun nofun id
  | csFault _ _ _ hp hb _ => exact absurd hb (by simp [hd.idle (by simp [hp])])
  | csDriven _ _ _ _ h => subst h; exact hd.setOthers _ _

/-- Every turn of the host keeps a clean state clean: only protocol turns are to come. -/
theorem HostCase.keeps_clean (h : HostCase s t) (hs : s.Clean) : t.Clean := by
  obtain ⟨hinv, hd⟩ := (clean_iff s).1 hs
  have hrest {a : HostAct} {rest : List HostAct} (hscript : s.script = a :: rest) : (s.setScript rest).Clean :=
    hs.setScript (protocolOnly_cons hd.script hscript).2
  cases h with
  | request _ _ _ hscript _ _ _ | badRequest _ _ _ hscript _ _ _ | poll _ _ _ _ hscript _ _ _ _ | reset _ hscript _ =>
    exact absurd (protocolOnly_cons hd.script hscript).1 nofun
  | fsm l hl h =>
    rcases hl with rfl | ⟨a, hscript⟩
    · exact h.keeps_clean hs
    · exact h.keeps_clean (hrest hscript)
  | waited rest hscript _ h => subst h; exact hrest hscript
  | attach m rest hscript h => exact h.keeps_clean (hrest hscript)
  | configure rest hscript h => exact h.keeps_clean (hrest hscript)
  | call a rest hscript h => exact h.keeps_clean (hrest hscript)
  | reload rest hscript hp h =>
    subst h; exact (hrest hscript).reload hp

/-- Settles O58: the block is clean at reset, and a step is the engine's, or the host's once a turn has passed, each of
which keeps it clean. -/
theorem protocolNeverFaults : Obligations.ProtocolNeverFaults := by
  refine ⟨fun P l hwf hlimit hl => ?_, fun s t hs hstep => ?_⟩
  · exact (clean_iff _).2 ⟨(inv_iff _).2 ⟨hwf, Device.ok_reset P, Fsm.ok_reset, rfl⟩, driven_reset hl hlimit⟩
  · obtain ⟨hlive, ⟨_, rfl⟩ | ⟨_, hturn⟩⟩ := step_cases hstep
    · exact hs.engineCompleteWith Config.peer
    · exact (hostTurn_cases (s := s.tick) hlive hturn).keeps_clean hs.tick

end Sys2Proof.Machine
end

section
/-! SUPPORT. The call `transfer_one` and the transitions of the protocol FSM, one equation for each outcome (spec 43 R170
to R177). -/

namespace Sys2Proof.Machine

open Sys2Proof.Claims

variable {s : State}

/-- A buffer fits exactly when its length, if it is given, is that of the transfer (43 R171). -/
theorem buffer_fits_iff (len : Nat) (b : Option Buffer) :
    Buffer.fits len b = true ↔ ∀ a, b = some a → a.len = len := by
  cases b <;> simp [Buffer.fits]

/-- Both buffers fit (43 R171). -/
theorem buffersFit_iff (f : Fsm) :
    f.buffersFit = true ↔ (∀ a, f.tx = some a → a.len = f.len) ∧ ∀ a, f.rx = some a → a.len = f.len := by
  rw [Fsm.buffersFit, Bool.and_eq_true, buffer_fits_iff, buffer_fits_iff]

/-- A transfer is accepted by an attached driver in IDLE (43 R170). -/
theorem callTransferOne_of_idle (ha : s.fsm.att = .attached) (hp : s.fsm.pc = .idle) (d : Descriptor) :
    callTransferOne d s = s.setFsm (s.fsm.enter d) := by
  rw [callTransferOne, if_neg (not_not.2 ha), if_neg (not_not.2 hp)]

/-- Settles O41: the two refusals in the order of the checks, then the call as `Fsm.enter` records it. -/
theorem transferOneEntersCheck : Obligations.TransferOneEntersCheck := by
  refine fun s d => ⟨fun ha => if_pos ha, fun ha hp => ?_, callTransferOne_of_idle (d := d)⟩
  rw [callTransferOne, if_neg (not_not.2 ha), if_pos hp]
  rfl

/-- CHECK refuses a buffer that does not fit. -/
theorem fsmCheck_of_misfit (hb : ¬ s.fsm.buffersFit = true) : fsmCheck s = s.refuse .desc :=
  if_pos (by simpa using hb)

/-- CHECK reports a width other than 8 once the buffers fit. -/
theorem fsmCheck_of_width (hb : s.fsm.buffersFit = true) (hw : s.fsm.bpw ≠ Config.wordBits) :
    fsmCheck s =
      { s with hist := s.hist ++ [.log .eConfig], fsm := { s.fsm with ret := 0, pc := .finish } } := by
  rw [fsmCheck, if_neg (by simp [hb]), if_pos hw]
  rfl

/-- CHECK starts the first byte, or ends an empty transfer, once buffers and width are right. -/
theorem fsmCheck_of_valid (hb : s.fsm.buffersFit = true) (hw : s.fsm.bpw = Config.wordBits) :
    fsmCheck s =
      { s with
        fsm := { s.fsm with i := 0, ret := s.fsm.len, pc := if s.fsm.len = 0 then .finish else .emit } } := by
  rw [fsmCheck, if_neg (by simp [hb]), if_neg (not_not.2 hw)]
  rfl

/-- Settles O42: the three outcomes of CHECK in the order of its tests. -/
theorem checkValidatesTheDescriptor : Obligations.CheckValidatesTheDescriptor := by
  refine fun s => ⟨fun hmisfit => fsmCheck_of_misfit fun hb => ?_, fun htx hrx => ?_⟩
  · obtain ⟨htx, hrx⟩ := (buffersFit_iff s.fsm).1 hb
    obtain ⟨a, ha, hne⟩ | ⟨a, ha, hne⟩ := hmisfit
    · exact hne (htx a ha)
    · exact hne (hrx a ha)
  · have hb : s.fsm.buffersFit = true := (buffersFit_iff s.fsm).2 ⟨htx, hrx⟩
    exact ⟨fsmCheck_of_width hb, fsmCheck_of_valid hb⟩

/-- EMIT takes the fault of its DATA write. -/
theorem fsmEmit_of_error {c : FaultCode} (h : wrData (emitByte s) s = .error c) :
    fsmEmit s = s.raiseFault c (encode (.wrData (emitByte s))) := by
  simp only [fsmEmit, h]

/-- EMIT puts the exchange of its byte in flight when the block is idle and configured. -/
theorem fsmEmit_of_configured (he : s.dev.eng = .idle) (hc : Configured s) :
    fsmEmit s =
      { s with
        dev := { s.dev with eng := .busy (emitByte s), done := some false }
        hist := s.hist ++ [.busW 0x0#4 (emitByte s), .xStart (emitByte s) s.dev.cs]
        fsm := { s.fsm with b := emitByte s, polls := 0, pc := .poll }
        due := exchangeDelay s.params s.draws
        draws := s.draws + 1 } := by
  simp only [fsmEmit, wrData_of_configured _ he hc, beginExchange_eq]
  rfl

/-- In a state with no fault, EMIT whose DATA write is turned away takes that fault, and does nothing else. -/
theorem fsmEmit_faulted {c : FaultCode} (hf : s.dev.fault = none) (h : wrData (emitByte s) s = .error c) :
    fsmEmit s = faulted s c (writeWord 0x1000#16 (emitByte s)) := by
  rw [fsmEmit_of_error h, raiseFault_of_none hf, encode_eq_writeWord]
  rfl

/-- Settles O43: the byte is `emitByte`, and EMIT does what the DATA write of it does. -/
theorem emitWritesSourceOrIdleByte : Obligations.EmitWritesSourceOrIdleByte := by
  intro s b hb
  obtain rfl : b = emitByte s := by
    obtain ⟨a, htx, hb⟩ | ⟨htx, hb⟩ := hb
    · simp only [emitByte, htx, hb]
    · simp only [emitByte, htx, hb, Config.idleByte]
  refine ⟨fun he hc => ?_, fun hf ⟨t, he⟩ => fsmEmit_faulted hf (wrData_of_busy he _),
    fun hf he hc => fsmEmit_faulted hf (wrData_of_not_configured he hc _)⟩
  rw [fsmEmit_of_configured he hc]
  exact ⟨rfl, rfl, rfl, rfl, rfl, fun _ => rfl⟩

/-- Reading DONE gives a bit, the flag itself where it is known, and takes at most a free choice. -/
theorem readDone_spec (s : State) :
    ∃ bit n, readDone s = (bit, { s with draws := n }) ∧ ∀ d, s.dev.done = some d → bit = d := by
  cases hdone : s.dev.done with
  | none => exact ⟨_, _, readDone_none hdone, nofun⟩
  | some d => exact ⟨d, s.draws, readDone_some hdone, fun e he => Option.some.inj he⟩

/-- A STATUS read in which DONE reads as `bit`, obtained with the free choices up to `n`. -/
theorem rdStatus_of_readDone {bit : Bool} {n : Nat} (h : readDone s = (bit, { s with draws := n })) :
    rdStatus s =
      (statusByte s.params (Config.draw n) bit,
        { s with hist := s.hist ++ [.busR 0x4#4 (statusByte s.params (Config.draw n) bit)], draws := n + 1 }) := by
  simp only [rdStatus, h]
  rfl

/-- POLL that reads DONE = 1 goes on to READ. -/
theorem fsmPoll_of_done {n : Nat} (h : readDone s = (true, { s with draws := n })) :
    fsmPoll s =
      { s with
        hist := s.hist ++ [.busR 0x4#4 (statusByte s.params (Config.draw n) true)]
        fsm := { s.fsm with pc := .read }
        draws := n + 1 } := by
  simp only [fsmPoll, rdStatus_of_readDone h, statusDone_statusByte, if_true]
  rfl

/-- POLL that reads DONE = 0 while the limit has not run out polls again. -/
theorem fsmPoll_of_not_done {n : Nat} (h : readDone s = (false, { s with draws := n }))
    (hx : pollExpired s.params s.fsm.countPoll = false) :
    fsmPoll s =
      { s with
        hist := s.hist ++ [.busR 0x4#4 (statusByte s.params (Config.draw n) false)]
        fsm := { s.fsm with polls := s.fsm.polls + 1, pc := .poll }
        draws := n + 1 } := by
  simp only [fsmPoll, rdStatus_of_readDone h, statusDone_statusByte, pollAgain, hx, Bool.false_eq_true, if_false]
  rfl

/-- POLL that reads DONE = 0 as the limit runs out logs it and ends the transfer with the count of completed bytes. -/
theorem fsmPoll_of_expired {n : Nat} (h : readDone s = (false, { s with draws := n }))
    (hx : pollExpired s.params s.fsm.countPoll = true) :
    fsmPoll s =
      { s with
        hist := s.hist ++ [.busR 0x4#4 (statusByte s.params (Config.draw n) false), .log .eNonResponse]
        fsm := { s.fsm with polls := s.fsm.polls + 1, ret := s.fsm.i, pc := .finish }
        draws := n + 1 } := by
  simp only [fsmPoll, rdStatus_of_readDone h, statusDone_statusByte, pollAgain, hx, Bool.false_eq_true, if_false,
    if_true, State.emit, State.setFsm, List.append_assoc]
  rfl

/-- The limit has not run out with one more read when there is none, or when it lies above that count. -/
theorem pollExpired_countPoll_eq_false {P : Params} {f : Fsm}
    (h : ∀ m, P.pollLimit = some m → f.polls + 1 < m) : pollExpired P f.countPoll = false := by
  refine Bool.eq_false_iff.2 fun hx => ?_
  obtain ⟨m, hm, hle⟩ := (pollExpired_iff P f.countPoll).1 hx
  exact absurd (h m hm) (Nat.not_lt.2 hle)

/-- Settles O44: the byte read has DONE as it reads, and of the reads of 0 the limit says which ends the poll. -/
theorem pollFollowsTheDoneBit : Obligations.PollFollowsTheDoneBit := by
  intro s
  obtain ⟨bit, n, hread, hbit⟩ := readDone_spec s
  have hv : (statusByte s.params (Config.draw n) bit).getLsbD s.params.statusDoneBit.val = bit :=
    statusDone_statusByte _ _ _
  refine ⟨statusByte s.params (Config.draw n) bit, fun d hd => hv.trans (hbit d hd), ?_⟩
  rw [hv]
  cases bit with
  | true =>
    rw [fsmPoll_of_done hread]
    exact ⟨rfl, rfl, rfl, fun _ => rfl, fun _ => ⟨rfl, rfl⟩, nofun⟩
  | false =>
    cases hx : pollExpired s.params s.fsm.countPoll with
    | true =>
      rw [fsmPoll_of_expired hread hx]
      refine ⟨rfl, rfl, rfl, fun _ => rfl, nofun, fun _ => ⟨fun _ _ _ => ⟨rfl, rfl⟩, fun hwait => ?_⟩⟩
      have hwaits : ∀ m, s.params.pollLimit = some m → s.fsm.polls + 1 < m := by
        rintro m hm
        obtain hnone | ⟨k, hk, hlt⟩ := hwait
        · cases hnone.symm.trans hm
        · cases hk.symm.trans hm; exact hlt
      cases (pollExpired_countPoll_eq_false hwaits).symm.trans hx
    | false =>
      rw [fsmPoll_of_not_done hread hx]
      refine ⟨rfl, rfl, rfl, fun _ => rfl, nofun, fun _ => ⟨fun m hm hle => ?_, fun _ => ⟨rfl, rfl⟩⟩⟩
      cases hx.symm.trans ((pollExpired_iff _ _).2 ⟨m, hm, hle⟩)

/-- READ takes the fault of its DATA read while an exchange is in flight. -/
theorem fsmRead_of_busy {b : Byte} (he : s.dev.eng = .busy b) :
    fsmRead s = s.raiseFault .dataRdBusy (encode .rdData) := by
  simp only [fsmRead, rdData_of_busy he]

/-- READ in an idle block holds the byte it read, `r`, obtained with the free choices up to `n`. -/
theorem fsmRead_of_value {r : Byte} {n : Nat} (he : s.dev.eng = .idle)
    (hr : dataReadValue s = (r, { s with draws := n })) :
    fsmRead s =
      { s with
        dev := { s.dev with done := if s.params.doneClearedByDataRead then some false else s.dev.done }
        hist := s.hist ++ [.busR 0x0#4 r]
        fsm := { s.fsm with r := r, pc := .store }
        draws := n } := by
  rw [← afterDataRead_eq]
  simp only [fsmRead, rdData, he, hr]
  rfl

/-- A DATA read gives its byte, and takes at most a free choice. -/
theorem dataReadValue_spec (s : State) : ∃ n, dataReadValue s = ((dataReadValue s).1, { s with draws := n }) := by
  obtain ⟨n, hn⟩ := dataReadValue_frame s
  exact ⟨n, Prod.ext rfl hn⟩

/-- Settles O45: READ does what the DATA read does. -/
theorem readTakesTheReceivedByte : Obligations.ReadTakesTheReceivedByte := by
  refine fun s => ⟨fun hf ⟨b, he⟩ => ?_, fun he => ?_⟩
  · rw [fsmRead_of_busy he, raiseFault_of_none hf, encode_eq_writeWord]
    rfl
  · obtain ⟨n, hr⟩ := dataReadValue_spec s
    rw [fsmRead_of_value he hr]
    exact ⟨_, rfl, rfl, fun x hdone hrx => congrArg Prod.fst (dataReadValue_ready hdone hrx), rfl, rfl, rfl,
      fun _ => rfl⟩

/-- Host memory with the byte `r` kept at index `i` of a destination buffer, or discarded (43 R176). -/
def keepByte (rx : Option Buffer) (m : List Host.Cell) (i : Nat) (r : Byte) : List Host.Cell :=
  match rx with
  | some a => Memory.write m (a.base + i) r
  | none => m

/-- STORE keeps or discards the byte it holds. -/
theorem fsmStore_eq (s : State) :
    fsmStore s =
      { s with
        fsm := { s.fsm with i := s.fsm.i + 1, pc := if s.fsm.i + 1 = s.fsm.len then .finish else .emit }
        mem := keepByte s.fsm.rx s.mem s.fsm.i s.fsm.r } := rfl

/-- Settles O46: STORE writes at most the one address, which reads back in a canonical memory. -/
theorem storeKeepsOrDiscards : Obligations.StoreKeepsOrDiscards := by
  intro s
  rw [fsmStore_eq]
  refine ⟨rfl, rfl, rfl, rfl, rfl, fun hrx a => ?_, fun b hrx => ⟨fun hwf => ?_, fun a ha => ?_⟩⟩
  · simp only [hrx, keepByte]
  · simp only [hrx, keepByte, Memory.read_write_same _ _ hwf]
  · simp only [hrx, keepByte, Memory.read_write_other _ _ ha]

/-- Settles O47: FINISH appends its two events and goes to IDLE. -/
theorem finishFinalizesOnce : Obligations.FinishFinalizesOnce := by
  intro s
  simp only [fsmFinish, State.emit, State.setFsm, List.append_assoc]
  rfl

end Sys2Proof.Machine
end

section
/-! SUPPORT. No transition of the protocol FSM writes CS (spec 43 R185). -/

namespace Sys2Proof.Machine

open Sys2Proof.Claims

variable {s t : State}

/-- From `s` to `t` the line keeps its level, and the events appended hold no write of CS. -/
def LeavesCs (s t : State) : Prop :=
  t.dev.cs = s.dev.cs ∧ ∃ l, adds s t l ∧ ∀ v, Event.busW 0xC#4 v ∉ l

/-- CS is left alone where the line and the history are kept. -/
theorem LeavesCs.of_same (hcs : t.dev.cs = s.dev.cs) (hhist : t.hist = s.hist) : LeavesCs s t :=
  ⟨hcs, [], by rw [adds, hhist, List.append_nil], fun _ => List.not_mem_nil⟩

/-- CS is left alone where the line is kept and no write of CS is among the events appended. -/
theorem LeavesCs.of_append {l : List Event} (hcs : t.dev.cs = s.dev.cs) (hhist : t.hist = s.hist ++ l)
    (hl : ∀ v, Event.busW 0xC#4 v ∉ l) : LeavesCs s t :=
  ⟨hcs, l, hhist, hl⟩

/-- Taking a fault leaves CS alone. -/
theorem leavesCs_raiseFault (s : State) (c : FaultCode) (w : ReqWord) : LeavesCs s (s.raiseFault c w) := by
  obtain ⟨f, hf⟩ := raiseFault_frame s c w
  rw [hf]
  exact .of_same rfl rfl

/-- CHECK leaves CS alone. -/
theorem leavesCs_fsmCheck (s : State) : LeavesCs s (fsmCheck s) := by
  by_cases hb : s.fsm.buffersFit = true
  · by_cases hw : s.fsm.bpw = Config.wordBits
    · rw [fsmCheck_of_valid hb hw]; exact .of_same rfl rfl
    · rw [fsmCheck_of_width hb hw]; exact .of_append rfl rfl (by simp)
  · rw [fsmCheck_of_misfit hb]; exact .of_same rfl rfl

/-- EMIT writes DATA, or takes a fault. -/
theorem leavesCs_fsmEmit (s : State) : LeavesCs s (fsmEmit s) := by
  cases hr : wrData (emitByte s) s with
  | error c => rw [fsmEmit_of_error hr]; exact leavesCs_raiseFault _ _ _
  | ok u =>
    obtain ⟨he, hc, _⟩ := wrData_ok hr
    rw [fsmEmit_of_configured he hc]
    exact .of_append rfl rfl (by simp)

/-- POLL reads STATUS. -/
theorem leavesCs_fsmPoll (s : State) : LeavesCs s (fsmPoll s) := by
  obtain ⟨bit, n, hread, _⟩ := readDone_spec s
  cases bit with
  | true => rw [fsmPoll_of_done hread]; exact .of_append rfl rfl (by simp)
  | false =>
    cases hx : pollExpired s.params s.fsm.countPoll with
    | true => rw [fsmPoll_of_expired hread hx]; exact .of_append rfl rfl (by simp)
    | false => rw [fsmPoll_of_not_done hread hx]; exact .of_append rfl rfl (by simp)

/-- READ reads DATA, or takes a fault. -/
theorem leavesCs_fsmRead (s : State) : LeavesCs s (fsmRead s) := by
  rcases eng_cases s with ⟨b, hb⟩ | he
  · rw [fsmRead_of_busy hb]; exact leavesCs_raiseFault _ _ _
  · obtain ⟨n, hr⟩ := dataReadValue_spec s
    rw [fsmRead_of_value he hr]
    exact .of_append rfl rfl (by simp)

/-- Settles O48: of each transition. -/
theorem transferNeverWritesCs : Obligations.TransferNeverWritesCs := by
  intro s
  change LeavesCs s (fsmStep s)
  unfold fsmStep
  cases s.fsm.pc with
  | idle => exact .of_same rfl rfl
  | check => exact leavesCs_fsmCheck s
  | emit => exact leavesCs_fsmEmit s
  | poll => exact leavesCs_fsmPoll s
  | read => exact leavesCs_fsmRead s
  | store => exact .of_same rfl rfl
  | finish => rw [finishFinalizesOnce s]; exact .of_append rfl rfl (by simp)

end Sys2Proof.Machine
end

section
/-! SUPPORT. Runs of the machine, and the step with no turn listed, in which the protocol FSM takes a transition (spec 00
R7, 43 R172 to R177; log entry 2). -/

namespace Sys2Proof.Machine

open Sys2Proof.Claims

variable {s t : State}

/-- A run begins with its first step. -/
theorem run_succ (h : step s = .next t) (n : Nat) :
    Host.Core.run Sys2Proof.core (n + 1) s = Host.Core.run Sys2Proof.core n t := by
  have hcore : Sys2Proof.core.step s = .next t := h
  simp only [Host.Core.run, hcore]

/-- A first step, and a run from the state it answers. -/
theorem run_cons {u : State} {n : Nat} (h : step s = .next t) (hrun : Host.Core.run Sys2Proof.core n t = .next u) :
    Host.Core.run Sys2Proof.core (n + 1) s = .next u :=
  (run_succ h n).trans hrun

/-- A run that answers a next state took a first step that did. -/
theorem run_succ_next {n : Nat} (h : Host.Core.run Sys2Proof.core (n + 1) s = .next t) :
    ∃ u, step s = .next u ∧ Host.Core.run Sys2Proof.core n u = .next t := by
  cases hstep : Sys2Proof.core.step s with
  | next u => exact ⟨u, hstep, (run_succ hstep n).symm.trans h⟩
  | fault r => simp only [Host.Core.run, hstep] at h; cases h
  | refused r => simp only [Host.Core.run, hstep] at h; cases h

/-- A run goes on from where its first part ended. -/
theorem run_add {m : Nat} (h : Host.Core.run Sys2Proof.core m s = .next t) (n : Nat) :
    Host.Core.run Sys2Proof.core (m + n) s = Host.Core.run Sys2Proof.core n t := by
  induction m generalizing s with
  | zero => cases h; rw [Nat.zero_add]
  | succ m ih =>
    obtain ⟨u, hstep, hrun⟩ := run_succ_next h
    rw [Nat.add_right_comm, run_succ hstep, ih hrun]

/-- A run of one step. -/
theorem run_one (h : step s = .next t) : Host.Core.run Sys2Proof.core 1 s = .next t := run_succ h 0

/-- No engine step is due while the engine is idle. -/
theorem engineDue_of_idle (he : s.dev.eng = .idle) : s.engineDue = false := by
  refine Bool.eq_false_iff.2 fun h => ?_
  obtain ⟨⟨b, hb⟩, _⟩ := (engineDue_iff s).1 h
  cases he.symm.trans hb

/-- No engine step is due while a host turn still falls before it. -/
theorem engineDue_of_due_ne (h : s.due ≠ some 0) : s.engineDue = false :=
  Bool.eq_false_iff.2 fun hd => h ((engineDue_iff s).1 hd).2

/-- With no turn listed and no engine step due, the step is the transition that the FSM's state names. -/
theorem step_fsm (hlive : s.live = true) (hdue : s.engineDue = false) (hscript : s.script = []) :
    step s = .next (fsmStep s.tick) := by
  rw [step_host hlive hdue, hostTurn_nil (s := s.tick) hscript]

/-- The step in FINISH. -/
theorem step_of_finish (hlive : s.live = true) (hdue : s.engineDue = false) (hscript : s.script = [])
    (hp : s.fsm.pc = .finish) :
    step s = .next
      { s.tick with hist := s.hist ++ [.finalize, .ret s.fsm.ret], fsm := { s.fsm with pc := .idle } } := by
  rw [step_fsm hlive hdue hscript, fsmStep, tick_fsm, hp]
  exact congrArg _ (finishFinalizesOnce s.tick)

/-- A transfer that is accepted goes to CHECK. -/
theorem callTransferOne_pc (ha : s.fsm.att = .attached) (hp : s.fsm.pc = .idle) (d : Descriptor) :
    (callTransferOne d s).fsm.pc = .check := by
  rw [callTransferOne_of_idle ha hp, setFsm_fsm, enter_pc]

/-- Settles O49: CHECK logs the width and FINISH returns the 0 it left, after which the driver is in IDLE. -/
theorem unsupportedWidthTouchesNothing : Obligations.UnsupportedWidthTouchesNothing := by
  intro s hlive hscript ha hp hb hw he
  have hcheck : step s = .next
      { s.tick with hist := s.hist ++ [.log .eConfig], fsm := { s.fsm with ret := 0, pc := .finish } } := by
    rw [step_fsm hlive (engineDue_of_idle he) hscript, fsmStep, tick_fsm, hp]
    exact congrArg _ (fsmCheck_of_width (s := s.tick) hb hw)
  exact ⟨_, run_cons hcheck (run_one (step_of_finish hlive (engineDue_of_idle he) hscript rfl)),
    List.append_assoc _ _ _, rfl, rfl, fun _ => rfl, callTransferOne_pc ha rfl⟩

end Sys2Proof.Machine
end

section
/-! SUPPORT. POLL while an exchange is in flight: the reads of DONE = 0 before the engine's step, and the timeout (spec 43
R174, R178, R183, R184; log entry 3). -/

namespace Sys2Proof.Machine

open Sys2Proof.Claims

variable {s : State} {b : Byte}

/-- The FSM polls for the exchange of `b`, in flight, with no other turn of the host to come. -/
structure Waiting (b : Byte) (s : State) : Prop where
  live : s.live = true
  script : s.script = []
  pc : s.fsm.pc = .poll
  eng : s.dev.eng = .busy b
  done : s.dev.done = some false

/-- The state after `n` more reads of DONE = 0, the events `zs`. -/
def State.polled (n : Nat) (zs : List Event) (s : State) : State :=
  { s with
    hist := s.hist ++ zs
    fsm := { s.fsm with polls := s.fsm.polls + n, pc := .poll }
    due := s.due.map fun k => k - n
    draws := s.draws + n }

/-- No read leaves a state that polls as it is. -/
theorem polled_zero (hp : s.fsm.pc = .poll) : s.polled 0 [] = s := by
  simp only [State.polled, List.append_nil, Nat.add_zero, Nat.sub_zero, Option.map_id', ← hp]

/-- One read after `n` makes `n + 1`. -/
theorem polled_polled_one (n : Nat) (zs : List Event) (e : Event) (s : State) :
    (s.polled n zs).polled 1 [e] = s.polled (n + 1) (zs ++ [e]) := by
  simp [State.polled, Function.comp_def, Nat.sub_sub, Nat.add_assoc]

/-- Reads of DONE = 0 leave the exchange in flight. -/
theorem Waiting.polled (h : Waiting b s) (n : Nat) (zs : List Event) : Waiting b (s.polled n zs) :=
  ⟨h.live, h.script, rfl, h.eng, h.done⟩

/-- A STATUS byte made with `bit`, as the only read of its list. -/
theorem pollsSeeing_statusByte (P : Params) (other : Byte) (bit : Bool) :
    pollsSeeing P bit [.busR 0x4#4 (statusByte P other bit)] := by
  intro e he
  exact ⟨_, List.mem_singleton.1 he, statusDone_statusByte _ _ _⟩

/-- Lists of such reads append. -/
theorem pollsSeeing_append {P : Params} {bit : Bool} {zs ws : List Event} (hz : pollsSeeing P bit zs)
    (hw : pollsSeeing P bit ws) : pollsSeeing P bit (zs ++ ws) :=
  List.forall_mem_append.2 ⟨hz, hw⟩

/-- Before the engine's step a poll within the limit reads DONE = 0, and stays. -/
theorem step_of_waiting (h : Waiting b s) (hdue : s.due ≠ some 0)
    (hlimit : ∀ m, s.params.pollLimit = some m → s.fsm.polls + 1 < m) :
    step s = .next (s.polled 1 [.busR 0x4#4 (statusByte s.params (Config.draw s.draws) false)]) := by
  rw [step_fsm h.live (engineDue_of_due_ne hdue) h.script, fsmStep, tick_fsm, h.pc]
  exact congrArg _ (fsmPoll_of_not_done (s := s.tick) (readDone_some h.done) (pollExpired_countPoll_eq_false hlimit))

/-- Before the engine's step the poll in which the limit runs out reads DONE = 0, logs, and leaves for FINISH. -/
theorem step_of_expired (h : Waiting b s) (hdue : s.due ≠ some 0) {m : Nat} (hlimit : s.params.pollLimit = some m)
    (hm : m ≤ s.fsm.polls + 1) :
    step s = .next
      { s.tick with
        hist := s.hist ++ [.busR 0x4#4 (statusByte s.params (Config.draw s.draws) false), .log .eNonResponse]
        fsm := { s.fsm with polls := s.fsm.polls + 1, ret := s.fsm.i, pc := .finish }
        draws := s.draws + 1 } := by
  rw [step_fsm h.live (engineDue_of_due_ne hdue) h.script, fsmStep, tick_fsm, h.pc]
  exact congrArg _ (fsmPoll_of_expired (s := s.tick) (readDone_some h.done) ((pollExpired_iff _ _).2 ⟨m, hlimit, hm⟩))

/-- A count of host turns above `n` does not run out in `n` of them. -/
theorem map_sub_ne_some_zero {due : Option Nat} {n : Nat} (h : ∀ k, due = some k → n < k) :
    (due.map fun k => k - n) ≠ some 0 := by
  rw [Ne, Option.map_eq_some_iff]
  rintro ⟨k, hk, hzero⟩
  exact absurd (h k hk) (by omega)

/-- As many polls as fit before the engine's step and within the limit read DONE = 0, one after the other. -/
theorem run_of_waiting (h : Waiting b s) (n : Nat) (hdue : ∀ k, s.due = some k → n ≤ k)
    (hlimit : ∀ m, s.params.pollLimit = some m → s.fsm.polls + n < m) :
    ∃ zs, zs.length = n ∧ pollsSeeing s.params false zs ∧
      Host.Core.run Sys2Proof.core n s = .next (s.polled n zs) := by
  induction n with
  | zero => exact ⟨[], rfl, nofun, congrArg _ (polled_zero h.pc).symm⟩
  | succ n ih =>
    obtain ⟨zs, hlen, hzs, hrun⟩ := ih (fun k hk => Nat.le_of_succ_le (hdue k hk))
      (fun m hm => Nat.lt_of_succ_lt (hlimit m hm))
    have hstep := step_of_waiting (h.polled n zs) (map_sub_ne_some_zero hdue) hlimit
    rw [polled_polled_one] at hstep
    exact ⟨_, by simp [hlen], pollsSeeing_append hzs (pollsSeeing_statusByte _ _ _),
      (run_add hrun 1).trans (run_one hstep)⟩

/-- Settles O51: neither the engine's step nor a limit ends the reads. -/
theorem unboundedPollOfADeadEngineHangs : Obligations.UnboundedPollOfADeadEngineHangs := by
  intro s b hlive hscript hp he hdone hdue hlimit n
  have hwait : Waiting b s := ⟨hlive, hscript, hp, he, hdone⟩
  obtain ⟨zs, hlen, hzs, hrun⟩ := run_of_waiting hwait n (by simp [hdue]) (by simp [hlimit])
  exact ⟨_, zs, hrun, rfl, he, hlen, hzs, rfl⟩

/-- While an exchange is in flight a DATA write and a CS write take their busy faults (41 R142). -/
theorem writes_fault_of_busy (hlive : s.live = true) (he : s.dev.eng = .busy b) :
    (∀ v, exec (.wrData v) s = .next (faulted s .dataWrBusy (writeWord 0x1000#16 v))) ∧
    ∀ v, exec (.wrCs v) s = .next (faulted s .csBusy (writeWord 0x1C00#16 v)) :=
  ⟨fun v => (wrDataStartsExchangeOrFaults s v hlive).1 ⟨b, he⟩,
    fun v => (wrCsDrivesLineOrFaults s v hlive).1 ⟨b, he⟩⟩

/-- Settles O52: all polls but the last are within the limit, the last runs it out, and FINISH returns the index; the
exchange in flight then turns the next writes away. -/
theorem timeoutReturnsCompletedCount : Obligations.TimeoutReturnsCompletedCount := by
  intro s b m hlive hscript hp he hdone hlimit hpos hpolls hdue
  have hwait : Waiting b s := ⟨hlive, hscript, hp, he, hdone⟩
  obtain ⟨m, rfl⟩ : ∃ k, m = k + 1 := ⟨m - 1, by omega⟩
  have hbefore : ∀ k, s.due = some k → m < k := fun k hk => Nat.lt_of_succ_lt (hdue k hk)
  obtain ⟨zs, hlen, hzs, hrun⟩ := run_of_waiting hwait m (fun k hk => (hbefore k hk).le) (by simp [hlimit, hpolls])
  have hexpire := step_of_expired (hwait.polled m zs) (map_sub_ne_some_zero hbefore) hlimit
    (by simp [State.polled, hpolls])
  have hturns : ((s.due.map fun k => k - m).map fun k => k - 1) ≠ some 0 := by
    rw [Option.map_map]
    exact map_sub_ne_some_zero (n := m + 1) hdue
  refine ⟨_, zs ++ [.busR 0x4#4 (statusByte s.params (Config.draw (s.draws + m)) false)],
    (run_add hrun 2).trans (run_cons hexpire (run_one (step_of_finish hlive (engineDue_of_due_ne hturns) hscript rfl))),
    by simp [hlen], pollsSeeing_append hzs (pollsSeeing_statusByte _ _ _), ?_, rfl, rfl, rfl, fun _ => rfl,
    writes_fault_of_busy (b := b) hlive he⟩
  simp [adds, State.polled]

end Sys2Proof.Machine
end

section
/-! SUPPORT. One byte from POLL on: the reads of DONE = 0, the engine's step, the read of DONE = 1, the DATA read and the
store (spec 41 R141, 43 R174 to R176, R179, R182; log entry 3). -/

namespace Sys2Proof.Machine

open Sys2Proof.Claims

variable {s : State} {b : Byte}

/-- The step in POLL once DONE is set. -/
theorem step_of_done (hlive : s.live = true) (hscript : s.script = []) (he : s.dev.eng = .idle) (hp : s.fsm.pc = .poll)
    (hdone : s.dev.done = some true) :
    step s = .next
      { s.tick with
        hist := s.hist ++ [.busR 0x4#4 (statusByte s.params (Config.draw s.draws) true)]
        fsm := { s.fsm with pc := .read }
        draws := s.draws + 1 } := by
  rw [step_fsm hlive (engineDue_of_idle he) hscript, fsmStep, tick_fsm, hp]
  exact congrArg _ (fsmPoll_of_done (s := s.tick) (readDone_some hdone))

/-- The step in READ while DONE is set. -/
theorem step_of_read {x : Byte} (hlive : s.live = true) (hscript : s.script = []) (he : s.dev.eng = .idle)
    (hp : s.fsm.pc = .read) (hdone : s.dev.done = some true) (hrx : s.dev.rx = some x) :
    step s = .next
      { s.tick with
        dev := { s.dev with done := if s.params.doneClearedByDataRead then some false else s.dev.done }
        hist := s.hist ++ [.busR 0x0#4 x]
        fsm := { s.fsm with r := x, pc := .store } } := by
  rw [step_fsm hlive (engineDue_of_idle he) hscript, fsmStep, tick_fsm, hp]
  exact congrArg _ (fsmRead_of_value (s := s.tick) (n := s.draws) he (dataReadValue_ready hdone hrx))

/-- The step in STORE. -/
theorem step_of_store (hlive : s.live = true) (hscript : s.script = []) (he : s.dev.eng = .idle)
    (hp : s.fsm.pc = .store) :
    step s = .next
      { s.tick with
        fsm := { s.fsm with i := s.fsm.i + 1, pc := if s.fsm.i + 1 = s.fsm.len then .finish else .emit }
        mem := keepByte s.fsm.rx s.mem s.fsm.i s.fsm.r } := by
  rw [step_fsm hlive (engineDue_of_idle he) hscript, fsmStep, tick_fsm, hp]
  rfl

/-- The state after the exchange of `b` has ended with the answer `r`, which the FSM has then found with the STATUS byte
`v`, read and stored. -/
def State.received (b r v : Byte) (s : State) : State :=
  { s with
    dev := { s.dev with
             eng := .idle
             done := if s.params.doneClearedByDataRead then some false else some true
             rx := some r }
    hist := s.hist ++ [.xEnd b r s.dev.cs, .busR 0x4#4 v, .busR 0x0#4 r]
    fsm := { s.fsm with
             r := r
             i := s.fsm.i + 1
             pc := if s.fsm.i + 1 = s.fsm.len then .finish else .emit }
    mem := keepByte s.fsm.rx s.mem s.fsm.i r
    due := none
    draws := s.draws + 2 }

/-- Once the engine's step is due, four steps end the exchange and store its answer. -/
theorem run_of_engineDue (h : Waiting b s) (hdue : s.due = some 0) :
    Host.Core.run Sys2Proof.core 4 s = .next
      (s.received b (Config.peer s.hist b s.dev.cs s.draws) (statusByte s.params (Config.draw (s.draws + 1)) true)) := by
  have hengine := step_engine h.live ((engineDue_iff s).2 ⟨⟨b, h.eng⟩, hdue⟩)
  rw [engineComplete, engineCompleteWith_busy _ h.eng] at hengine
  refine run_cons hengine (run_cons (step_of_done h.live h.script rfl h.pc rfl)
    (run_cons (step_of_read h.live h.script rfl rfl rfl rfl) (run_cons (step_of_store h.live h.script rfl rfl)
      (congrArg Host.Outcome.next ?_))))
  simp only [List.append_assoc]
  rfl

/-- One byte: the `k` polls before the engine's step, and what follows it. -/
theorem run_exchange (h : Waiting b s) {k : Nat} (hdue : s.due = some k)
    (hlimit : ∀ m, s.params.pollLimit = some m → s.fsm.polls + k < m) :
    ∃ (zs : List Event) (v : Byte), zs.length = k ∧ pollsSeeing s.params false zs ∧ statusDone s.params v = true ∧
      Host.Core.run Sys2Proof.core (k + 4) s = .next
        ((s.polled k zs).received b (Config.peer (s.hist ++ zs) b s.dev.cs (s.draws + k)) v) := by
  obtain ⟨zs, hlen, hzs, hrun⟩ := run_of_waiting h k (fun j hj => (Option.some.inj (hdue.symm.trans hj)).le) hlimit
  have hnow : (s.polled k zs).due = some 0 := by simp [State.polled, hdue]
  exact ⟨zs, _, hlen, hzs, statusDone_statusByte _ _ _,
    (run_add hrun 4).trans (run_of_engineDue (h.polled k zs) hnow)⟩

/-- Settles O50: the run is `run_exchange`, and the fields are those of the state it ends in. -/
theorem oneByteOfATransfer : Obligations.OneByteOfATransfer := by
  intro s b k hlive hscript hp he hdone hdue hlimit
  obtain ⟨zs, v, hlen, hzs, hv, hrun⟩ := run_exchange ⟨hlive, hscript, hp, he, hdone⟩ hdue hlimit
  refine ⟨_, zs, v, _, hrun, hlen, hzs, hv, rfl, List.append_assoc _ _ _, rfl, rfl, rfl, rfl, fun hrx => ?_,
    fun a hrx => ?_⟩
  · simp only [State.received, State.polled, keepByte, hrx]
  · simp only [State.received, State.polled, keepByte, hrx]

end Sys2Proof.Machine
end

section
/-! SUPPORT. Host memory over the bytes of a transfer: the byte sent is read before the answer is kept (spec 43 R173,
R176, R178). -/

namespace Sys2Proof.Machine

open Sys2Proof.Claims

variable {rx : Option Buffer} {m m' : List Host.Cell} {xs : List (Byte × Byte)}

/-- The byte to send at index `i`: of the source buffer, or the idle byte (43 R173). -/
def sourceByte (tx : Option Buffer) (m : List Host.Cell) (i : Nat) : Byte :=
  match tx with
  | some a => Memory.read m (a.base + i)
  | none => Config.idleByte

/-- EMIT sends the byte at its index. -/
theorem emitByte_eq (s : State) : emitByte s = sourceByte s.fsm.tx s.mem s.fsm.i := rfl

/-- From index `i` and host memory `m` the pairs of bytes sent and received lead to host memory `m'`: each byte is sent
as the memory then stands, and its answer is kept or discarded. -/
def exchangesBytes (tx rx : Option Buffer) : Nat → List Host.Cell → List (Byte × Byte) → List Host.Cell → Prop
  | _, m, [], m' => m' = m
  | i, m, (b, r) :: xs, m' => b = sourceByte tx m i ∧ exchangesBytes tx rx (i + 1) (keepByte rx m i r) xs m'

/-- Without a source every byte sent is the idle byte. -/
theorem exchangesBytes_idle {i : Nat} (h : exchangesBytes none rx i m xs m') : ∀ x ∈ xs, x.1 = Config.idleByte := by
  induction xs generalizing i m with
  | nil => nofun
  | cons x xs ih =>
    obtain ⟨hsent, hrest⟩ := h
    exact List.forall_mem_cons.2 ⟨hsent, ih hrest⟩

/-- Keeping a byte changes no address but the one it is kept at. -/
theorem read_keepByte_of_ne {a i : Nat} {r : Byte} (h : ∀ b, rx = some b → a ≠ b.base + i) :
    Memory.read (keepByte rx m i r) a = Memory.read m a := by
  cases rx with
  | none => rfl
  | some b => exact Memory.read_write_other m r (h b rfl)

/-- With a source that is not overwritten ahead of its index the bytes sent are the source's. -/
theorem exchangesBytes_source {a : Buffer} {i : Nat} (h : exchangesBytes (some a) rx i m xs m')
    (hno : ∀ b, rx = some b → ∀ k j, j < k → k < i + xs.length → b.base + j ≠ a.base + k) :
    ∀ j, j < xs.length → (xs[j]?).map Prod.fst = some (Memory.read m (a.base + (i + j))) := by
  induction xs generalizing i m with
  | nil => nofun
  | cons x xs ih =>
    obtain ⟨hsent, hrest⟩ := h
    rw [List.length_cons] at hno
    intro j hj
    cases j with
    | zero => exact congrArg some hsent
    | succ j =>
      have hj : j < xs.length := Nat.lt_of_succ_lt_succ hj
      have hunchanged : Memory.read (keepByte rx m i x.2) (a.base + (i + 1 + j)) =
          Memory.read m (a.base + (i + 1 + j)) :=
        read_keepByte_of_ne fun b hb => (hno b hb (i + 1 + j) i (by omega) (by omega)).symm
      rw [List.getElem?_cons_succ, ih hrest (fun b hb k l hl hk => hno b hb k l hl (by omega)) j hj, hunchanged,
        Nat.add_right_comm i 1 j]
      rfl

/-- Without a destination host memory is kept. -/
theorem exchangesBytes_discard {tx : Option Buffer} {i : Nat} (h : exchangesBytes tx none i m xs m') : m' = m := by
  induction xs generalizing i with
  | nil => exact h
  | cons x xs ih => exact ih h.2

/-- Outside the destination's addresses host memory reads as before. -/
theorem exchangesBytes_frame {tx : Option Buffer} {b : Buffer} {i a : Nat} (h : exchangesBytes tx (some b) i m xs m')
    (ha : ∀ j, j < xs.length → a ≠ b.base + (i + j)) : Memory.read m' a = Memory.read m a := by
  induction xs generalizing i m with
  | nil => exact congrArg (Memory.read · a) h
  | cons x xs ih =>
    rw [List.length_cons] at ha
    have hrest : Memory.read m' a = Memory.read (keepByte (some b) m i x.2) a :=
      ih h.2 fun j hj => by rw [Nat.add_assoc, Nat.add_comm 1 j]; exact ha (j + 1) (Nat.succ_lt_succ hj)
    exact hrest.trans (Memory.read_write_other m x.2 (ha 0 (by omega)))

/-- In a canonical memory the destination holds the answers, in order. -/
theorem exchangesBytes_answers {tx : Option Buffer} {b : Buffer} {i : Nat} (hwf : Memory.wf m = true)
    (h : exchangesBytes tx (some b) i m xs m') :
    ∀ j, j < xs.length → (xs[j]?).map Prod.snd = some (Memory.read m' (b.base + (i + j))) := by
  induction xs generalizing i m with
  | nil => nofun
  | cons x xs ih =>
    obtain ⟨_, hrest⟩ := h
    intro j hj
    cases j with
    | zero =>
      have hkept : Memory.read m' (b.base + i) = x.2 :=
        (exchangesBytes_frame hrest fun k _ => by omega).trans (Memory.read_write_same _ _ hwf)
      exact congrArg some hkept.symm
    | succ j =>
      rw [List.getElem?_cons_succ, ih (Memory.wf_write _ _ hwf) hrest j (Nat.lt_of_succ_lt_succ hj),
        Nat.add_right_comm i 1 j]
      rfl

end Sys2Proof.Machine
end

section
/-! SUPPORT. A whole transfer, byte by byte, when every exchange completes and the poll is unbounded (spec 43 R172 to
R182, 95 section 1; log entry 3). -/

namespace Sys2Proof.Machine

open Sys2Proof.Claims

variable {s t u : State}

/-- Between two bytes of a transfer with no other turn to come, the block idle and configured, the poll unbounded and
every exchange to complete: the FSM is in EMIT, or in FINISH after the last byte. -/
structure BetweenBytes (s : State) : Prop where
  live : s.live = true
  script : s.script = []
  pc : s.fsm.pc = if s.fsm.i = s.fsm.len then .finish else .emit
  eng : s.dev.eng = .idle
  configured : Configured s
  unbounded : s.params.pollLimit = none
  completes : s.params.engineCompletes = true

/-- From `s` to `u` the FSM has exchanged the pairs of bytes `xs` and appended the events `l`. -/
structure BytesExchanged (xs : List (Byte × Byte)) (l : List Event) (s u : State) : Prop where
  hist : adds s u l
  trace : groupTrace s.params s.dev.cs xs l
  mem : exchangesBytes s.fsm.tx s.fsm.rx s.fsm.i s.mem xs u.mem
  index : u.fsm.i = s.fsm.i + xs.length
  params : u.params = s.params
  cs : u.dev.cs = s.dev.cs
  tx : u.fsm.tx = s.fsm.tx
  rx : u.fsm.rx = s.fsm.rx
  len : u.fsm.len = s.fsm.len
  ret : u.fsm.ret = s.fsm.ret

/-- No byte exchanged. -/
theorem BytesExchanged.nil (s : State) : BytesExchanged [] [] s s :=
  ⟨(List.append_nil _).symm, rfl, rfl, rfl, rfl, rfl, rfl, rfl, rfl, rfl⟩

/-- The group of one byte before the trace of others. -/
theorem groupTrace_cons {P : Params} {cs : Option Level} {x : Byte × Byte} {xs : List (Byte × Byte)} {g l : List Event}
    (hg : groupTrace P cs [x] g) (hl : groupTrace P cs xs l) : groupTrace P cs (x :: xs) (g ++ l) := by
  obtain ⟨zs, v, rest, rfl, hzs, hv, rfl⟩ := hg
  exact ⟨zs, v, l, by rw [List.append_nil], hzs, hv, hl⟩

/-- One byte exchanged, then others. -/
theorem BytesExchanged.cons {x : Byte × Byte} {xs : List (Byte × Byte)} {g l : List Event}
    (hx : BytesExchanged [x] g s t) (hxs : BytesExchanged xs l t u) : BytesExchanged (x :: xs) (g ++ l) s u where
  hist := by rw [adds, hxs.hist, hx.hist, List.append_assoc]
  trace := groupTrace_cons hx.trace (hx.params ▸ hx.cs ▸ hxs.trace)
  mem := by
    obtain ⟨hsent, hmem⟩ := hx.mem
    have hrest := hxs.mem
    rw [hx.tx, hx.rx, hx.index, hmem] at hrest
    exact ⟨hsent, hrest⟩
  index := by rw [hxs.index, hx.index, Nat.add_assoc, ← List.length_append, List.singleton_append]
  params := hxs.params.trans hx.params
  cs := hxs.cs.trans hx.cs
  tx := hxs.tx.trans hx.tx
  rx := hxs.rx.trans hx.rx
  len := hxs.len.trans hx.len
  ret := hxs.ret.trans hx.ret

/-- An exchange that completes for certain has its end after some number of host turns (41 R146, R147). -/
theorem exchangeDelay_of_completes {P : Params} (h : P.engineCompletes = true) (n : Nat) :
    exchangeDelay P n = some (Config.exchangeTurns n) := by
  simp [exchangeDelay, h]

/-- The state after EMIT has put the exchange of its byte in flight. -/
def State.emitted (s : State) : State :=
  { s with
    dev := { s.dev with eng := .busy (emitByte s), done := some false }
    hist := s.hist ++ [.busW 0x0#4 (emitByte s), .xStart (emitByte s) s.dev.cs]
    fsm := { s.fsm with b := emitByte s, polls := 0, pc := .poll }
    due := exchangeDelay s.params s.draws
    draws := s.draws + 1 }

/-- Before the last byte has been exchanged the step is EMIT's. -/
theorem BetweenBytes.step (h : BetweenBytes s) (hi : s.fsm.i ≠ s.fsm.len) : step s = .next s.emitted := by
  rw [step_fsm h.live (engineDue_of_idle h.eng) h.script, fsmStep, tick_fsm, h.pc, if_neg hi]
  exact congrArg _ (fsmEmit_of_configured (s := s.tick) h.eng h.configured)

/-- One byte is exchanged, and the FSM is between bytes again. -/
theorem BetweenBytes.run_byte (h : BetweenBytes s) (hi : s.fsm.i ≠ s.fsm.len) :
    ∃ n u x g, Host.Core.run Sys2Proof.core n s = .next u ∧ BetweenBytes u ∧ BytesExchanged [x] g s u := by
  have hwait : Waiting (emitByte s) s.emitted := ⟨h.live, h.script, rfl, rfl, rfl⟩
  obtain ⟨zs, v, _, hzs, hv, hrun⟩ := run_exchange hwait (exchangeDelay_of_completes h.completes s.draws)
    fun m hm => nomatch h.unbounded.symm.trans hm
  refine ⟨_, _, (emitByte s, _), _, (run_succ (h.step hi) _).trans hrun,
    ⟨h.live, h.script, rfl, rfl, h.configured, h.unbounded, h.completes⟩,
    ⟨?_, ⟨zs, v, [], rfl, hzs, hv, rfl⟩, ⟨emitByte_eq s, rfl⟩, rfl, rfl, rfl, rfl, rfl, rfl, rfl⟩⟩
  simp [adds, State.received, State.polled, State.emitted]

/-- All the bytes that are left are exchanged, after which the FSM is in FINISH. -/
theorem BetweenBytes.run_bytes (h : BetweenBytes s) {left : Nat} (hleft : s.fsm.i + left = s.fsm.len) :
    ∃ n u xs l, Host.Core.run Sys2Proof.core n s = .next u ∧ BetweenBytes u ∧ u.fsm.pc = .finish ∧
      xs.length = left ∧ BytesExchanged xs l s u := by
  induction left generalizing s with
  | zero => exact ⟨0, s, [], [], rfl, h, h.pc.trans (if_pos hleft), rfl, .nil s⟩
  | succ left ih =>
    obtain ⟨m, t, x, g, hrun, ht, hx⟩ := h.run_byte (by omega)
    have hleft' : t.fsm.i + left = t.fsm.len := by
      have hindex : t.fsm.i = s.fsm.i + 1 := hx.index
      rw [hindex, hx.len, Nat.add_assoc, Nat.add_comm 1, hleft]
    obtain ⟨n, u, xs, l, hrun', hu, hp, hlen, hxs⟩ := ih ht hleft'
    exact ⟨m + n, u, x :: xs, g ++ l, (run_add hrun n).trans hrun', hu, hp, by rw [List.length_cons, hlen],
      hx.cons hxs⟩

/-- The state after CHECK has accepted the descriptor. -/
def State.checked (s : State) : State :=
  { s.tick with
    fsm := { s.fsm with i := 0, ret := s.fsm.len, pc := if s.fsm.len = 0 then .finish else .emit } }

/-- The step in CHECK when buffers and width are right. -/
theorem step_of_check (hlive : s.live = true) (hscript : s.script = []) (he : s.dev.eng = .idle)
    (hp : s.fsm.pc = .check) (hb : s.fsm.buffersFit = true) (hw : s.fsm.bpw = 8) : step s = .next s.checked := by
  rw [step_fsm hlive (engineDue_of_idle he) hscript, fsmStep, tick_fsm, hp]
  exact congrArg _ (fsmCheck_of_valid (s := s.tick) hb hw)

/-- Settles O53: CHECK puts the FSM before the first byte, the bytes are exchanged one after the other, and FINISH returns
the count CHECK set; host memory is what the exchanges make of it. -/
theorem wholeTransferCompletes : Obligations.WholeTransferCompletes := by
  intro s hlive hscript hp hw hb he hc hlimit hcompletes hwf
  have hstart : BetweenBytes s.checked :=
    ⟨hlive, hscript, by simp only [State.checked, eq_comm], he, hc, hlimit, hcompletes⟩
  obtain ⟨n, t, xs, l, hrun, ht, htp, hlen, hx⟩ := hstart.run_bytes (left := s.fsm.len) (Nat.zero_add _)
  have hfinish := step_of_finish ht.live (engineDue_of_idle ht.eng) ht.script htp
  have hmem : exchangesBytes s.fsm.tx s.fsm.rx 0 s.mem xs t.mem := hx.mem
  have hret : t.fsm.ret = s.fsm.len := hx.ret
  refine ⟨_, _, xs, l, run_cons (step_of_check hlive hscript he hp hb hw) ((run_add hrun 1).trans (run_one hfinish)),
    hlen, hx.trace, ?_, rfl, hret, ht.eng, hx.cs, fun htx => ?_, fun a htx hno i hi => ?_, fun hrx a => ?_,
    fun b hrx => ⟨fun i hi => ?_, fun a ha => ?_⟩⟩
  · have hhist : t.hist = s.hist ++ l := hx.hist
    simp only [adds, hhist, hret, List.append_assoc]
  · rw [htx] at hmem
    exact exchangesBytes_idle hmem
  · rw [htx] at hmem
    have hbytes := exchangesBytes_source hmem
      (fun b hrx k j hjk hk => hno a b htx hrx k j hjk (by omega)) i (hlen ▸ hi)
    rwa [Nat.zero_add] at hbytes
  · rw [hrx] at hmem
    exact congrArg (Memory.read · a) (exchangesBytes_discard hmem)
  · rw [hrx] at hmem
    have hanswers := exchangesBytes_answers hwf hmem i (hlen ▸ hi)
    rwa [Nat.zero_add] at hanswers
  · rw [hrx] at hmem
    refine exchangesBytes_frame hmem fun i hi => ?_
    rw [Nat.zero_add]
    exact ha i (hlen ▸ hi)

end Sys2Proof.Machine
end

section
/-! SUPPORT. Two machines that differ in whether a DATA read clears DONE, and may then differ in DONE: what does not look
at DONE does the same in both (spec 40 R102, R104, R110, R112, 43 R170, R172, 44 R200, 45 R210, 95 section 2.6). -/

namespace Sys2Proof.Machine

variable {s : State} {c : Bool} {x : Option Bool}

/-- The state with `DONE_CLEARED_BY_DATA_READ` set to `c` and DONE to `x`. -/
def State.retuned (c : Bool) (x : Option Bool) (s : State) : State :=
  { s with
    params := { s.params with doneClearedByDataRead := c }
    dev := { s.dev with done := x } }

/-- A fault is taken alike. -/
theorem raiseFault_retuned (s : State) (c : Bool) (x : Option Bool) (k : FaultCode) (w : ReqWord) :
    (s.retuned c x).raiseFault k w = (s.raiseFault k w).retuned c x := by
  cases hf : s.dev.fault with
  | some f => rw [raiseFault_of_some hf, raiseFault_of_some (s := s.retuned c x) hf]
  | none => rw [raiseFault_of_none hf, raiseFault_of_none (s := s.retuned c x) hf]; rfl

/-- Results that differ so are committed to states that do. -/
theorem commit_retuned (i : Instr) (s : State) (c : Bool) (x : Option Bool) (r : Except FaultCode State) :
    commit i (s.retuned c x) (r.map (State.retuned c x)) = (commit i s r).retuned c x := by
  cases r with
  | error k => exact raiseFault_retuned s c x k (encode i)
  | ok t => rfl

/-- No check of a CONFIG write looks at DONE. -/
theorem wrConfig_retuned (v : Byte) (s : State) (c : Bool) (x : Option Bool) :
    wrConfig v (s.retuned c x) = (wrConfig v s).map (State.retuned c x) := by
  rcases eng_cases s with ⟨b, he⟩ | he
  · rw [wrConfig_of_busy he, wrConfig_of_busy (s := s.retuned c x) he]; rfl
  · by_cases hr : cfgRsvd s.params v = 0x00#8
    · by_cases hs : cfgSpeed s.params v = s.params.speedFastest
      · rw [wrConfig_of_legal he hr hs, wrConfig_of_legal (s := s.retuned c x) he hr hs]; rfl
      · rw [wrConfig_of_speed he hr hs, wrConfig_of_speed (s := s.retuned c x) he hr hs]; rfl
    · rw [wrConfig_of_reserved he hr, wrConfig_of_reserved (s := s.retuned c x) he hr]; rfl

/-- No check of a CS write looks at DONE. -/
theorem wrCs_retuned (v : Byte) (s : State) (c : Bool) (x : Option Bool) :
    wrCs v (s.retuned c x) = (wrCs v s).map (State.retuned c x) := by
  rcases eng_cases s with ⟨b, he⟩ | he
  · rw [wrCs_of_busy he, wrCs_of_busy (s := s.retuned c x) he]; rfl
  · by_cases hv : csValueLegal v = true
    · rw [wrCs_of_legal he hv, wrCs_of_legal (s := s.retuned c x) he hv]; rfl
    · rw [wrCs_of_illegal he hv, wrCs_of_illegal (s := s.retuned c x) he hv]; rfl

/-- `configure` does what its CONFIG write does. -/
theorem configure_retuned (s : State) (c : Bool) (x : Option Bool) :
    configure (s.retuned c x) = (configure s).map (State.retuned c x) := by
  have hwrite := wrConfig_retuned (configInit s.params) s c x
  unfold configure
  rw [show configInit (s.retuned c x).params = configInit s.params from rfl, hwrite]
  cases wrConfig (configInit s.params) s <;> rfl

/-- A direct call of `configure` does not look at DONE. -/
theorem callConfigure_retuned (s : State) (c : Bool) (x : Option Bool) :
    callConfigure (s.retuned c x) = (callConfigure s).retuned c x := by
  by_cases hc : s.fsm.att ≠ .unattached ∨ s.fsm.handle = none
  · rw [callConfigure_of_not_mapped hc, callConfigure_of_not_mapped (s := s.retuned c x) hc]; rfl
  · rw [not_or, not_not] at hc
    rw [callConfigure_of_mapped hc.1 hc.2, callConfigure_of_mapped (s := s.retuned c x) hc.1 hc.2, configure_retuned]
    exact commit_retuned _ s c x _

/-- `attach` with a mapped base does what `configure` does. -/
theorem attachMapped_retuned (base : Nat) (s : State) (c : Bool) (x : Option Bool) :
    attachMapped base (s.retuned c x) = (attachMapped base s).map (State.retuned c x) := by
  have hconf := configure_retuned (s.setFsm { s.fsm with handle := some (Handle.ofBase base) }) c x
  unfold attachMapped
  rw [show (s.retuned c x).setFsm { (s.retuned c x).fsm with handle := some (Handle.ofBase base) } =
    (s.setFsm { s.fsm with handle := some (Handle.ofBase base) }).retuned c x from rfl, hconf]
  cases configure (s.setFsm { s.fsm with handle := some (Handle.ofBase base) }) <;> rfl

/-- `attach` does not look at DONE. -/
theorem callAttach_retuned (m : Option Nat) (s : State) (c : Bool) (x : Option Bool) :
    callAttach m (s.retuned c x) = (callAttach m s).retuned c x := by
  unfold callAttach
  by_cases ha : s.fsm.att ≠ .unattached
  · rw [if_pos ha, if_pos (show (s.retuned c x).fsm.att ≠ .unattached from ha)]; rfl
  · rw [if_neg ha, if_neg (show ¬ (s.retuned c x).fsm.att ≠ .unattached from ha)]
    cases m with
    | none => rfl
    | some base =>
      by_cases hb : baseOk s.params base = true
      · simp only [if_pos hb, if_pos (show baseOk (s.retuned c x).params base = true from hb), attachMapped_retuned]
        exact commit_retuned _ s c x _
      · simp only [if_neg hb, if_neg (show ¬ baseOk (s.retuned c x).params base = true from hb)]
        rfl

/-- `transfer_one` does not look at DONE. -/
theorem callTransferOne_retuned (d : Descriptor) (s : State) (c : Bool) (x : Option Bool) :
    callTransferOne d (s.retuned c x) = (callTransferOne d s).retuned c x := by
  obtain ⟨hpre, hre, hok⟩ := transferOneEntersCheck s d
  obtain ⟨hpre', hre', hok'⟩ := transferOneEntersCheck (s.retuned c x) d
  by_cases ha : s.fsm.att = .attached
  · by_cases hp : s.fsm.pc = .idle
    · rw [hok ha hp, hok' ha hp]; rfl
    · rw [hre ha hp, hre' ha hp]; rfl
  · rw [hpre ha, hpre' ha]; rfl

/-- `set_chip_select` does what its CS write does. -/
theorem callSetChipSelect_retuned (a : Bool) (s : State) (c : Bool) (x : Option Bool) :
    callSetChipSelect a (s.retuned c x) = (callSetChipSelect a s).retuned c x := by
  unfold callSetChipSelect
  by_cases ha : s.fsm.att ≠ .attached
  · rw [if_pos ha, if_pos (show (s.retuned c x).fsm.att ≠ .attached from ha)]; rfl
  · rw [if_neg ha, if_neg (show ¬ (s.retuned c x).fsm.att ≠ .attached from ha)]
    by_cases hp : s.fsm.pc ≠ .idle
    · rw [if_pos hp, if_pos (show (s.retuned c x).fsm.pc ≠ .idle from hp)]; rfl
    · rw [if_neg hp, if_neg (show ¬ (s.retuned c x).fsm.pc ≠ .idle from hp), wrCs_retuned]
      exact commit_retuned _ s c x _

/-- CHECK does not look at DONE. -/
theorem fsmCheck_retuned (s : State) (c : Bool) (x : Option Bool) :
    fsmCheck (s.retuned c x) = (fsmCheck s).retuned c x := by
  by_cases hb : s.fsm.buffersFit = true
  · by_cases hw : s.fsm.bpw = Config.wordBits
    · rw [fsmCheck_of_valid hb hw, fsmCheck_of_valid (s := s.retuned c x) hb hw]; rfl
    · rw [fsmCheck_of_width hb hw, fsmCheck_of_width (s := s.retuned c x) hb hw]; rfl
  · rw [fsmCheck_of_misfit hb, fsmCheck_of_misfit (s := s.retuned c x) hb]; rfl

/-- What DONE reads as, while only the parameter differs. -/
theorem readDone_retuned (s : State) (c : Bool) :
    readDone (s.retuned c s.dev.done) = (readDone s).map id (State.retuned c s.dev.done) := by
  cases hdone : s.dev.done with
  | none => rw [readDone_none hdone, readDone_none rfl]; rfl
  | some d => rw [readDone_some hdone, readDone_some rfl]; rfl

/-- The byte a DATA read obtains, while only the parameter differs. -/
theorem dataReadValue_retuned (s : State) (c : Bool) :
    dataReadValue (s.retuned c s.dev.done) = (dataReadValue s).map id (State.retuned c s.dev.done) := by
  by_cases hdrawn : s.dev.done ≠ some true ∨ s.dev.rx = none
  · rw [dataReadValue_of_not_ready hdrawn, dataReadValue_of_not_ready (s := s.retuned c s.dev.done) hdrawn]; rfl
  · rw [not_or, not_not] at hdrawn
    obtain ⟨hdone, hrx⟩ := hdrawn
    obtain ⟨y, hy⟩ := Option.ne_none_iff_exists'.1 hrx
    rw [dataReadValue_ready hdone hy, dataReadValue_ready (s := s.retuned c s.dev.done) hdone hy]; rfl

end Sys2Proof.Machine
end

section
/-! SUPPORT. Whether a DATA read clears DONE is invisible to the protocol: the FSM looks at DONE only in POLL and READ,
and comes there after a DATA write that has cleared DONE under either value (spec 40 R102, R104, 43 R173 to R175, 95
section 2.6). -/

namespace Sys2Proof.Machine

open Sys2Proof.Claims

variable {s t u : State} {c : Bool} {x : Option Bool}

/-- The FSM is in a state that looks at DONE. -/
def Fsm.looksAtDone (f : Fsm) : Prop := f.pc = .poll ∨ f.pc = .read

/-- `u` is `s` under the value `c` of `DONE_CLEARED_BY_DATA_READ`, with the same DONE wherever the FSM looks at it. -/
def Mirrors (c : Bool) (s u : State) : Prop :=
  ∃ x, u = s.retuned c x ∧ (s.fsm.looksAtDone → x = s.dev.done)

/-- Where the FSM does not look at DONE it may be any. -/
theorem mirrors_of_not_looking (h : ¬ s.fsm.looksAtDone) (x : Option Bool) : Mirrors c s (s.retuned c x) :=
  ⟨x, rfl, fun hl => absurd hl h⟩

/-- DONE as it is, only the parameter set. -/
theorem mirrors_same_done (s : State) (c : Bool) : Mirrors c s (s.retuned c s.dev.done) := ⟨_, rfl, fun _ => rfl⟩

/-- From `s` to `t` DONE is kept, no look at it begins, and the turns to come stay. -/
structure KeepsDone (s t : State) : Prop where
  done : t.dev.done = s.dev.done
  looks : t.fsm.looksAtDone → s.fsm.looksAtDone
  script : t.script = s.script

/-- What does the same in both machines, and keeps DONE, keeps them alike. -/
theorem Mirrors.map {op : State → State} (h : Mirrors c s u) (hop : ∀ x, op (s.retuned c x) = (op s).retuned c x)
    (hkeep : KeepsDone s (op s)) : Mirrors c (op s) (op u) := by
  obtain ⟨x, rfl, hx⟩ := h
  exact ⟨x, hop x, fun hl => (hx (hkeep.looks hl)).trans hkeep.done.symm⟩

/-- Taking a fault keeps DONE. -/
theorem keepsDone_raiseFault (s : State) (k : FaultCode) (w : ReqWord) : KeepsDone s (s.raiseFault k w) := by
  obtain ⟨f, hf⟩ := raiseFault_frame s k w
  rw [hf]
  exact ⟨rfl, id, rfl⟩

/-- `attach` keeps DONE. -/
theorem AttachCase.keepsDone (h : AttachCase s t) : KeepsDone s t := by
  cases h with
  | turnedAway _ h | aborted _ h | fault _ _ _ h => subst h; exact ⟨rfl, id, rfl⟩
  | attached _ _ _ _ _ h => subst h; exact ⟨rfl, by simp [Fsm.looksAtDone], rfl⟩

/-- A direct call of `configure` keeps DONE. -/
theorem ConfigureCase.keepsDone (h : ConfigureCase s t) : KeepsDone s t := by
  cases h with
  | turnedAway _ h | fault _ _ _ h | written _ _ _ _ _ h => subst h; exact ⟨rfl, id, rfl⟩

/-- The host's other calls keep DONE. -/
theorem CallCase.keepsDone (h : CallCase s t) : KeepsDone s t := by
  cases h with
  | turnedAway _ h | csFault _ _ _ _ _ h | csDriven _ _ _ _ h => subst h; exact ⟨rfl, id, rfl⟩
  | begun _ _ _ h => subst h; exact ⟨rfl, by simp [Fsm.looksAtDone], rfl⟩

/-- CHECK keeps DONE. -/
theorem keepsDone_fsmCheck (s : State) : KeepsDone s (fsmCheck s) := by
  by_cases hb : s.fsm.buffersFit = true
  · by_cases hw : s.fsm.bpw = Config.wordBits
    · rw [fsmCheck_of_valid hb hw]
      exact ⟨rfl, by by_cases hlen : s.fsm.len = 0 <;> simp [Fsm.looksAtDone, hlen], rfl⟩
    · rw [fsmCheck_of_width hb hw]
      exact ⟨rfl, by simp [Fsm.looksAtDone], rfl⟩
  · rw [fsmCheck_of_misfit hb]
    exact ⟨rfl, id, rfl⟩

/-- STORE keeps DONE. -/
theorem keepsDone_fsmStore (s : State) : KeepsDone s (fsmStore s) :=
  ⟨rfl, by by_cases hlast : s.fsm.i + 1 = s.fsm.len <;> simp [fsmStore_eq, Fsm.looksAtDone, hlast], rfl⟩

/-- FINISH keeps DONE. -/
theorem keepsDone_fsmFinish (s : State) : KeepsDone s (fsmFinish s) :=
  ⟨rfl, by simp [fsmFinish, Fsm.looksAtDone], rfl⟩

/-- Taking a fault keeps the two machines alike. -/
theorem Mirrors.raiseFault (h : Mirrors c s u) (k : FaultCode) (w : ReqWord) :
    Mirrors c (s.raiseFault k w) (u.raiseFault k w) :=
  h.map (op := State.raiseFault k w) (fun x => raiseFault_retuned s c x k w) (keepsDone_raiseFault s k w)

/-- EMIT clears DONE in both machines, or takes the same fault. -/
theorem mirrors_fsmEmit (hp : s.fsm.pc = .emit) (x : Option Bool) :
    Mirrors c (fsmEmit s) (fsmEmit (s.retuned c x)) := by
  have hstart : Mirrors c s (s.retuned c x) := mirrors_of_not_looking (by simp [Fsm.looksAtDone, hp]) x
  rcases eng_cases s with ⟨b, he⟩ | he
  · rw [fsmEmit_of_error (wrData_of_busy he _), fsmEmit_of_error (wrData_of_busy (s := s.retuned c x) he _)]
    exact hstart.raiseFault _ _
  · by_cases hc : Configured s
    · rw [fsmEmit_of_configured he hc, fsmEmit_of_configured (s := s.retuned c x) he hc]
      exact mirrors_same_done _ c
    · rw [fsmEmit_of_error (wrData_of_not_configured he hc _),
        fsmEmit_of_error (wrData_of_not_configured (s := s.retuned c x) he hc _)]
      exact hstart.raiseFault _ _

/-- POLL reads the same DONE in both machines. -/
theorem mirrors_fsmPoll (s : State) (c : Bool) : Mirrors c (fsmPoll s) (fsmPoll (s.retuned c s.dev.done)) := by
  obtain ⟨bit, n, hread, _⟩ := readDone_spec s
  have hread' := (readDone_retuned s c).trans (congrArg (Prod.map id (State.retuned c s.dev.done)) hread)
  cases bit with
  | true =>
    rw [fsmPoll_of_done hread, fsmPoll_of_done (s := s.retuned c s.dev.done) hread']
    exact mirrors_same_done _ c
  | false =>
    cases hx : pollExpired s.params s.fsm.countPoll with
    | true =>
      rw [fsmPoll_of_expired hread hx, fsmPoll_of_expired (s := s.retuned c s.dev.done) hread' hx]
      exact mirrors_same_done _ c
    | false =>
      rw [fsmPoll_of_not_done hread hx, fsmPoll_of_not_done (s := s.retuned c s.dev.done) hread' hx]
      exact mirrors_same_done _ c

/-- READ obtains the same byte in both machines, and goes to STORE, where DONE may differ. -/
theorem mirrors_fsmRead (s : State) (c : Bool) : Mirrors c (fsmRead s) (fsmRead (s.retuned c s.dev.done)) := by
  rcases eng_cases s with ⟨b, he⟩ | he
  · rw [fsmRead_of_busy he, fsmRead_of_busy (s := s.retuned c s.dev.done) he]
    exact (mirrors_same_done s c).raiseFault _ _
  · obtain ⟨n, hread⟩ := dataReadValue_spec s
    have hread' := (dataReadValue_retuned s c).trans (congrArg (Prod.map id (State.retuned c s.dev.done)) hread)
    rw [fsmRead_of_value he hread, fsmRead_of_value (s := s.retuned c s.dev.done) he hread']
    exact mirrors_of_not_looking (by simp [Fsm.looksAtDone]) (if c then some false else s.dev.done)

/-- Every transition of the protocol FSM keeps the two machines alike. -/
theorem Mirrors.fsmStep (h : Mirrors c s u) : Mirrors c (fsmStep s) (fsmStep u) := by
  have hfsm : u.fsm = s.fsm := by obtain ⟨x, rfl, _⟩ := h; rfl
  unfold Machine.fsmStep
  rw [hfsm]
  cases hp : s.fsm.pc with
  | idle => exact h
  | check => exact h.map (fsmCheck_retuned s c) (keepsDone_fsmCheck s)
  | emit => obtain ⟨x, rfl, _⟩ := h; exact mirrors_fsmEmit hp x
  | poll => obtain ⟨x, rfl, hx⟩ := h; rw [hx (.inl hp)]; exact mirrors_fsmPoll s c
  | read => obtain ⟨x, rfl, hx⟩ := h; rw [hx (.inr hp)]; exact mirrors_fsmRead s c
  | store => exact h.map (fun _ => rfl) (keepsDone_fsmStore s)
  | finish => exact h.map (fun _ => rfl) (keepsDone_fsmFinish s)

/-- The engine's step sets DONE in both machines. -/
theorem Mirrors.engineComplete (h : Mirrors c s u) : Mirrors c (engineComplete s) (engineComplete u) := by
  unfold Machine.engineComplete
  rcases eng_cases s with ⟨b, he⟩ | he
  · obtain ⟨x, rfl, _⟩ := h
    rw [engineCompleteWith_busy _ he, engineCompleteWith_busy (s := s.retuned c x) _ he]
    exact mirrors_same_done _ c
  · have he' : u.dev.eng = .idle := by obtain ⟨x, rfl, _⟩ := h; exact he
    rw [engineCompleteWith_idle _ he, engineCompleteWith_idle _ he']
    exact h

/-- A host turn passed in both machines. -/
theorem Mirrors.tick (h : Mirrors c s u) : Mirrors c s.tick u.tick :=
  h.map (fun _ => rfl) ⟨rfl, id, rfl⟩

/-- The same turns put to come in both machines. -/
theorem Mirrors.setScript (h : Mirrors c s u) (l : List HostAct) : Mirrors c (s.setScript l) (u.setScript l) := by
  obtain ⟨x, rfl, hx⟩ := h
  exact ⟨x, rfl, hx⟩

/-- A reload in both machines, after which the FSM does not look at DONE. -/
theorem Mirrors.reload (h : Mirrors c s u) : Mirrors c (reload s) (reload u) := by
  obtain ⟨x, rfl, _⟩ := h
  exact mirrors_of_not_looking (s := Machine.reload s) (by simp [Machine.reload, Fsm.reset, Fsm.looksAtDone]) x

/-- A reload turn. -/
theorem hostTurn_reload {rest : List HostAct} (h : s.script = .reload :: rest) :
    hostTurn s = .next (reloadTurn rest s) := by
  simp only [hostTurn, h]

/-- An await turn. -/
theorem hostTurn_await {rest : List HostAct} (h : s.script = .await :: rest) :
    hostTurn s = .next (awaitTurn rest s) := by
  simp only [hostTurn, h]

/-- An await turn keeps the two machines alike. -/
theorem Mirrors.awaitTurn (h : Mirrors c s u) (rest : List HostAct) :
    Mirrors c (awaitTurn rest s) (awaitTurn rest u) := by
  have hfsm : u.fsm = s.fsm := by obtain ⟨x, rfl, _⟩ := h; rfl
  unfold Machine.awaitTurn
  rw [hfsm]
  split
  · exact h.setScript rest
  · exact h.fsmStep

/-- A reload turn keeps the two machines alike. -/
theorem Mirrors.reloadTurn (h : Mirrors c s u) (rest : List HostAct) :
    Mirrors c (reloadTurn rest s) (reloadTurn rest u) := by
  have hfsm : u.fsm = s.fsm := by obtain ⟨x, rfl, _⟩ := h; rfl
  unfold Machine.reloadTurn
  rw [hfsm]
  split
  · exact (h.setScript rest).reload
  · exact h.fsmStep

/-- A protocol turn of the host keeps the two machines alike. -/
theorem Mirrors.hostTurn (h : Mirrors c s u) (hlive : s.live = true) (hprotocol : s.protocolOnly = true)
    (hturn : hostTurn s = .next t) : ∃ v, hostTurn u = .next v ∧ Mirrors c t v := by
  have hf : s.dev.fault = none := ((live_iff s).1 hlive).1
  have hscript : u.script = s.script := by obtain ⟨x, rfl, _⟩ := h; rfl
  cases hs : s.script with
  | nil =>
    rw [hostTurn_nil hs] at hturn; cases hturn
    exact ⟨_, hostTurn_nil (hscript.trans hs), h.fsmStep⟩
  | cons a rest =>
    have hu : u.script = a :: rest := hscript.trans hs
    have hrest : Mirrors c (s.setScript rest) (u.setScript rest) := h.setScript rest
    cases a with
    | bus w => exact absurd (protocolOnly_cons hprotocol hs).1 nofun
    | poll => exact absurd (protocolOnly_cons hprotocol hs).1 nofun
    | reset => exact absurd (protocolOnly_cons hprotocol hs).1 nofun
    | attach m =>
      rw [hostTurn_attach hs] at hturn; cases hturn
      exact ⟨_, hostTurn_attach hu,
        hrest.map (callAttach_retuned m _ c) (callAttach_cases (s := s.setScript rest) m hf).keepsDone⟩
    | configure =>
      rw [hostTurn_configure hs] at hturn; cases hturn
      exact ⟨_, hostTurn_configure hu,
        hrest.map (callConfigure_retuned _ c) (callConfigure_cases (s := s.setScript rest) hf).keepsDone⟩
    | transferOne d =>
      rw [hostTurn_transferOne hs] at hturn; cases hturn
      exact ⟨_, hostTurn_transferOne hu,
        hrest.map (callTransferOne_retuned d _ c) (callTransferOne_cases d).keepsDone⟩
    | setChipSelect a =>
      rw [hostTurn_setChipSelect hs] at hturn; cases hturn
      exact ⟨_, hostTurn_setChipSelect hu,
        hrest.map (callSetChipSelect_retuned a _ c) (callSetChipSelect_cases (s := s.setScript rest) a hf).keepsDone⟩
    | proceed =>
      rw [hostTurn_proceed hs] at hturn; cases hturn
      exact ⟨_, hostTurn_proceed hu, hrest.fsmStep⟩
    | await =>
      rw [hostTurn_await hs] at hturn; cases hturn
      exact ⟨_, hostTurn_await hu, h.awaitTurn rest⟩
    | reload =>
      rw [hostTurn_reload hs] at hturn; cases hturn
      exact ⟨_, hostTurn_reload hu, h.reloadTurn rest⟩

/-- A step of the protocol keeps the two machines alike. -/
theorem Mirrors.step (h : Mirrors c s u) (hprotocol : s.protocolOnly = true) (hstep : step s = .next t) :
    ∃ v, step u = .next v ∧ Mirrors c t v := by
  obtain ⟨hlive, hcase⟩ := step_cases hstep
  have hlive' : u.live = true := by obtain ⟨x, rfl, _⟩ := h; exact hlive
  have hdue' : u.engineDue = s.engineDue := by obtain ⟨x, rfl, _⟩ := h; rfl
  obtain ⟨hdue, rfl⟩ | ⟨hdue, hturn⟩ := hcase
  · exact ⟨_, step_engine hlive' (hdue'.trans hdue), h.engineComplete⟩
  · obtain ⟨v, hv, hmirror⟩ := h.tick.hostTurn hlive hprotocol hturn
    exact ⟨v, (step_host hlive' (hdue'.trans hdue)).trans hv, hmirror⟩

/-- No transition of the protocol FSM changes the turns to come. -/
theorem FsmCase.script (h : FsmCase s t) : t.script = s.script := by
  cases h with
  | emitted _ _ _ h => subst h; rw [beginExchange_eq]
  | idle _ h | badShape _ _ h | badWidth _ _ _ h | checked _ _ _ h | emitFault _ _ _ h | pollDone _ _ _ _ _ h
  | pollExpired _ _ _ _ _ _ h | pollAgain _ _ _ _ _ _ h | readFault _ _ h | gotByte _ _ _ h | stored _ h
  | finished _ h => subst h; rfl

/-- A protocol turn leaves only protocol turns to come. -/
theorem HostCase.keeps_protocolOnly (h : HostCase s t) (hprotocol : s.protocolOnly = true) :
    t.protocolOnly = true := by
  have hall {l : List HostAct} (hscript : t.script = l) (hl : l.all HostAct.isProtocol = true) :
      t.protocolOnly = true := by rw [State.protocolOnly, hscript, hl]
  cases h with
  | request _ _ _ hs _ _ _ | badRequest _ _ _ hs _ _ _ | poll _ _ _ _ hs _ _ _ _ | reset _ hs _ =>
    exact absurd (protocolOnly_cons hprotocol hs).1 nofun
  | fsm l hl h =>
    rcases hl with rfl | ⟨a, hs⟩
    · exact hall h.script hprotocol
    · exact hall h.script (protocolOnly_cons hprotocol hs).2
  | attach _ _ hs h => exact hall h.keepsDone.script (protocolOnly_cons hprotocol hs).2
  | configure _ hs h => exact hall h.keepsDone.script (protocolOnly_cons hprotocol hs).2
  | call _ _ hs h => exact hall h.keepsDone.script (protocolOnly_cons hprotocol hs).2
  | waited _ hs _ h | reload _ hs _ h => subst h; exact (protocolOnly_cons hprotocol hs).2

/-- A machine driven by the protocol alone stays so. -/
theorem step_keeps_protocolOnly (hstep : step s = .next t) (hprotocol : s.protocolOnly = true) :
    t.protocolOnly = true := by
  obtain ⟨hlive, ⟨_, rfl⟩ | ⟨_, hturn⟩⟩ := step_cases hstep
  · rcases eng_cases s with ⟨b, he⟩ | he
    · rw [engineComplete, engineCompleteWith_busy _ he]; exact hprotocol
    · rw [engineComplete, engineCompleteWith_idle _ he]; exact hprotocol
  · exact (hostTurn_cases (s := s.tick) hlive hturn).keeps_protocolOnly hprotocol

/-- A run of the protocol keeps the two machines alike. -/
theorem Mirrors.run {n : Nat} (h : Mirrors c s u) (hprotocol : s.protocolOnly = true)
    (hrun : Host.Core.run Sys2Proof.core n s = .next t) :
    ∃ v, Host.Core.run Sys2Proof.core n u = .next v ∧ Mirrors c t v := by
  induction n generalizing s u with
  | zero => cases hrun; exact ⟨u, rfl, h⟩
  | succ n ih =>
    obtain ⟨s', hstep, hrest⟩ := run_succ_next hrun
    obtain ⟨u', hstep', hmirror⟩ := h.step hprotocol hstep
    obtain ⟨v, hrun', hmirror'⟩ := ih hmirror (step_keeps_protocolOnly hstep hprotocol) hrest
    exact ⟨v, run_cons hstep' hrun', hmirror'⟩

/-- Settles O59: the two machines begin alike and every step keeps them so. -/
theorem doneClearingIsInvisibleToTheProtocol : Obligations.DoneClearingIsInvisibleToTheProtocol := by
  intro n s t d hprotocol hrun
  obtain ⟨v, hrun', x, rfl, _⟩ := (mirrors_same_done s d).run hprotocol hrun
  exact ⟨_, hrun', rfl, rfl, rfl, rfl, rfl, rfl, rfl⟩

end Sys2Proof.Machine
end

section
/-! SUPPORT. `set_chip_select`: the two refusals, and the CS write of an attached driver in IDLE (spec 44 R200). -/

namespace Sys2Proof.Machine

open Sys2Proof.Claims

variable {s : State} (active : Bool)

/-- A driver that is not attached refuses the call. -/
theorem callSetChipSelect_of_not_attached (ha : s.fsm.att ≠ .attached) :
    callSetChipSelect active s = s.refuse .precondition := if_pos ha

/-- During a transfer the call is refused as reentrant. -/
theorem callSetChipSelect_of_in_transfer (ha : s.fsm.att = .attached) (hp : s.fsm.pc ≠ .idle) :
    callSetChipSelect active s = s.refuse .reentrant := by
  rw [callSetChipSelect, if_neg (not_not.2 ha), if_pos hp]

/-- An attached driver in IDLE commits one CS write, whatever that answers. -/
theorem callSetChipSelect_of_idle (ha : s.fsm.att = .attached) (hp : s.fsm.pc = .idle) :
    callSetChipSelect active s = commit (.wrCs (csByte active)) s (wrCs (csByte active) s) := by
  rw [callSetChipSelect, if_neg (not_not.2 ha), if_neg (not_not.2 hp)]

/-- The byte of an active chip-select drives the line high, that of an inactive one low. -/
theorem levelOfBit_csByte : levelOfBit ((csByte active).getLsbD 0) = if active then .high else .low := by
  cases active <;> rfl

/-- Settles O40: past the two refusals the call is its CS write, which only an exchange in flight turns away, since
both bytes are legal. -/
theorem setChipSelectWritesCs : Obligations.SetChipSelectWritesCs := by
  refine fun s active => ⟨callSetChipSelect_of_not_attached active, callSetChipSelect_of_in_transfer active,
    fun ha hp hf ⟨b, he⟩ => ?_, fun ha hp he => ?_⟩
  · rw [callSetChipSelect_of_idle active ha hp, wrCs_of_busy he, commit_error, raiseFault_of_none hf,
      encode_eq_writeWord]
    rfl
  · rw [callSetChipSelect_of_idle active ha hp, wrCs_of_legal he (csByte_legal active), commit_ok, levelOfBit_csByte]
    exact ⟨rfl, rfl, rfl, rfl, rfl, fun _ => rfl⟩

end Sys2Proof.Machine
end

section
/-! SUPPORT. `attach`: refused when the driver is not unattached, aborted without a mapping, and with a valid base the
handle, the CONFIG write and the registration (spec 45 R210, R211, 20 R51). -/

namespace Sys2Proof.Machine

open Sys2Proof.Claims

variable {s : State} {base : Nat}

/-- The window of a valid base, its last byte included, lies below the end of the address space (20 R51). -/
theorem baseOk_iff (P : Params) (base : Nat) : baseOk P base = true ↔ base + 15 < 2 ^ P.addrW := decide_eq_true_iff

/-- The Device Handle holds the base plus each register's offset. -/
theorem handle_ofBase (base : Nat) : Handle.ofBase base = ⟨base + 0, base + 4, base + 8, base + 12⟩ := rfl

/-- A driver that is not unattached refuses the call. -/
theorem callAttach_of_not_unattached (ha : s.fsm.att ≠ .unattached) (m : Option Nat) :
    callAttach m s = s.refuse .precondition := if_pos ha

/-- Without a mapping attach aborts. -/
theorem callAttach_of_no_mapping (ha : s.fsm.att = .unattached) : callAttach none s = attachFail s :=
  if_neg (not_not.2 ha)

/-- With a valid base attach commits the CONFIG write of its `configure`, whatever that answers. -/
theorem callAttach_of_baseOk (ha : s.fsm.att = .unattached) (hb : baseOk s.params base = true) :
    callAttach (some base) s = commit (.wrConfig (configInit s.params)) s (attachMapped base s) := by
  rw [callAttach, if_neg (not_not.2 ha)]
  exact if_pos hb

/-- Attach with a mapped base, an idle engine and legal parameters: the CONFIG write, its event, the registration, the
handle. -/
theorem attachMapped_of_idle (hwf : s.params.wf = true) (he : s.dev.eng = .idle) :
    attachMapped base s =
      .ok { s with
            dev := { s.dev with cfg := some (configInit s.params) }
            hist := s.hist ++ [.busW Reg.config.offset (configInit s.params), .cfgDone, .registered Config.caps]
            fsm := { s.fsm with att := .attached, pc := .idle, handle := some (Handle.ofBase base) } } := by
  have hconfigure := configure_of_idle (s := s.setFsm { s.fsm with handle := some (Handle.ofBase base) }) hwf he
  rw [attachMapped, hconfigure]
  simp [State.emit, State.setFsm]

/-- A call of attach that succeeds. -/
theorem callAttach_of_valid (ha : s.fsm.att = .unattached) (hb : base + 15 < 2 ^ s.params.addrW)
    (he : s.dev.eng = .idle) (hwf : s.params.wf = true) :
    callAttach (some base) s =
      { s with
        dev := { s.dev with cfg := some (configInit s.params) }
        hist := s.hist ++ [.busW Reg.config.offset (configInit s.params), .cfgDone, .registered Config.caps]
        fsm := { s.fsm with att := .attached, pc := .idle, handle := some (Handle.ofBase base) } } := by
  rw [callAttach_of_baseOk ha ((baseOk_iff _ _).2 hb), attachMapped_of_idle hwf he, commit_ok]

/-- Settles O36: the call is refused, aborts, or succeeds. -/
theorem attachConfiguresAndRegisters : Obligations.AttachConfiguresAndRegisters := by
  refine fun s => ⟨fun m ha => callAttach_of_not_unattached ha m, callAttach_of_no_mapping, fun base ha hb he hwf => ?_⟩
  rw [callAttach_of_valid ha hb he hwf, handle_ofBase]
  exact ⟨rfl, rfl, rfl, fun _ => rfl⟩

end Sys2Proof.Machine
end

section
/-! SUPPORT. After a failed attach: each call is refused, and no turn but the reset event appends a bus event (spec 45
R211, 20 R51; log entry 18). -/

namespace Sys2Proof.Machine

open Sys2Proof.Claims

variable {s t : State}

/-- From `s` to `t` the history grows by events that are no bus operations. -/
def NoBusEvent (s t : State) : Prop := ∃ l, adds s t l ∧ l.filter isBusEvent = []

/-- Where the history is kept no bus event is appended. -/
theorem NoBusEvent.of_same (h : t.hist = s.hist) : NoBusEvent s t :=
  ⟨[], by rw [adds, h, List.append_nil], rfl⟩

/-- The engine's step appends at most the end of the exchange. -/
theorem noBusEvent_engineCompleteWith (peer : Peer) (s : State) : NoBusEvent s (engineCompleteWith peer s) := by
  rcases eng_cases s with ⟨b, hb⟩ | hi
  · rw [engineCompleteWith_busy peer hb]
    exact ⟨_, rfl, rfl⟩
  · rw [engineCompleteWith_idle peer hi]
    exact .of_same rfl

/-- In IDLE the protocol FSM has no transition. -/
theorem FsmCase.eq_of_idle (h : FsmCase s t) (hp : s.fsm.pc = .idle) : t = s := by
  cases h with
  | idle _ h => exact h
  | badShape hq _ _ | badWidth hq _ _ _ | checked hq _ _ _ | emitFault _ hq _ _ | emitted hq _ _ _
  | pollDone _ _ hq _ _ _ | pollExpired _ _ hq _ _ _ _ | pollAgain _ _ hq _ _ _ _ | readFault hq _ _
  | gotByte _ hq _ _ | stored hq _ | finished hq _ => exact absurd (hp.symm.trans hq) nofun

/-- Where the driver is not unattached `attach` does nothing but refuse. -/
theorem AttachCase.eq_refuse (h : AttachCase s t) (ha : s.fsm.att ≠ .unattached) : t = s.refuse .precondition := by
  cases h with
  | turnedAway _ h => exact h
  | aborted hu _ | fault _ hu _ _ | attached _ hu _ _ _ _ => exact absurd hu ha

/-- Where the driver is not unattached a direct call of `configure` does nothing but refuse. -/
theorem ConfigureCase.eq_refuse (h : ConfigureCase s t) (ha : s.fsm.att ≠ .unattached) :
    t = s.refuse .precondition := by
  cases h with
  | turnedAway _ h => exact h
  | fault _ hu _ _ | written hu _ _ _ _ _ => exact absurd hu ha

/-- Where the driver is not attached the host's other calls do nothing but refuse. -/
theorem CallCase.eq_refuse (h : CallCase s t) (ha : s.fsm.att ≠ .attached) : ∃ c, t = s.refuse c := by
  cases h with
  | turnedAway c h => exact ⟨c, h⟩
  | begun _ hu _ _ | csFault _ _ hu _ _ _ | csDriven _ hu _ _ _ => exact absurd hu ha

/-- After a failed attach no turn of the host but the reset event appends a bus event. -/
theorem HostCase.noBusEvent (h : HostCase s t) (ha : s.fsm.att = .attachFailed) (hp : s.fsm.pc = .idle)
    (hreset : s.script.head? ≠ some .reset) : NoBusEvent s t := by
  have hu : s.fsm.att ≠ .unattached := by simp [ha]
  have hn : s.fsm.att ≠ .attached := by simp [ha]
  cases h with
  | request _ _ _ _ hr _ _ | badRequest _ _ _ _ hr _ _ | poll _ _ _ _ _ _ hr _ _ => exact absurd ha hr
  | fsm _ _ h => obtain rfl := h.eq_of_idle hp; exact .of_same rfl
  | attach _ _ _ h => obtain rfl := h.eq_refuse hu; exact .of_same rfl
  | configure _ _ h => obtain rfl := h.eq_refuse hu; exact .of_same rfl
  | call _ _ _ h => obtain ⟨c, rfl⟩ := h.eq_refuse hn; exact .of_same rfl
  | waited _ _ _ h | reload _ _ _ h => subst h; exact .of_same rfl
  | reset _ hs _ => exact absurd (by rw [hs]; rfl) hreset

/-- A driver that is not attached refuses a transfer. -/
theorem callTransferOne_of_not_attached (ha : s.fsm.att ≠ .attached) (d : Descriptor) :
    callTransferOne d s = s.refuse .precondition := if_pos ha

/-- Settles O38: the abort, the refusal of each call, and of the steps the engine's and the host's turns. -/
theorem failedAttachRefusesEveryCall : Obligations.FailedAttachRefusesEveryCall := by
  refine ⟨fun s ha => ?_, fun s ha => ?_, fun s t ha hp hreset hstep => ?_⟩
  · rw [callAttach_of_no_mapping ha]
    exact ⟨rfl, rfl, rfl⟩
  · have hu : s.fsm.att ≠ .unattached := by simp [ha]
    have hn : s.fsm.att ≠ .attached := by simp [ha]
    exact ⟨callAttach_of_not_unattached hu, callTransferOne_of_not_attached hn,
      fun a => callSetChipSelect_of_not_attached a hn, callConfigure_of_not_mapped (.inl hu)⟩
  · obtain ⟨hlive, ⟨_, rfl⟩ | ⟨_, hturn⟩⟩ := step_cases hstep
    · exact noBusEvent_engineCompleteWith Config.peer s
    · exact (hostTurn_cases (s := s.tick) hlive hturn).noBusEvent ha hp hreset

end Sys2Proof.Machine
end

section
/-! SUPPORT. The reload turn: a new launch of the protocol FSM in IDLE, and before that one more transition of the
transfer in progress, none of which touches the Device Handle (spec 45 R215, R217; log entry 11). -/

namespace Sys2Proof.Machine

open Sys2Proof.Claims

variable {s t : State} {rest : List HostAct}

/-- No transition of the protocol FSM touches the Device Handle. -/
theorem FsmCase.handle (h : FsmCase s t) : t.fsm.handle = s.fsm.handle := by
  cases h with
  | idle _ h | badShape _ _ h | badWidth _ _ _ h | checked _ _ _ h | emitFault _ _ _ h | emitted _ _ _ h
  | pollDone _ _ _ _ _ h | pollExpired _ _ _ _ _ _ h | pollAgain _ _ _ _ _ _ h | readFault _ _ h
  | gotByte _ _ _ h | stored _ h | finished _ h => subst h; rfl

/-- In IDLE the step that takes a reload turn launches the FSM again. -/
theorem step_reload_of_idle (hlive : s.live = true) (hdue : s.engineDue = false) (hscript : s.script = .reload :: rest)
    (hp : s.fsm.pc = .idle) : step s = .next (reload (popped s rest)) := by
  rw [step_host hlive hdue, hostTurn_reload (s := s.tick) hscript, reloadTurn, tick_fsm, if_pos hp, popped_eq]

/-- During a transfer the step that takes a reload turn is a transition of the FSM, and the turn stays listed. -/
theorem step_reload_of_running (hlive : s.live = true) (hdue : s.engineDue = false)
    (hscript : s.script = .reload :: rest) (hp : s.fsm.pc ≠ .idle) : step s = .next (fsmStep (popped s s.script)) := by
  rw [step_host hlive hdue, hostTurn_reload (s := s.tick) hscript, reloadTurn, tick_fsm, if_neg hp]
  rfl

/-- Settles O39: in IDLE the turn is the new launch, from which attach succeeds; during a transfer it is a transition of
the FSM, which keeps the handle. -/
theorem reloadKeepsTheDevice : Obligations.ReloadKeepsTheDevice := by
  refine fun s rest hlive hdue hscript => ⟨fun hp => ?_, fun hp => ?_⟩
  · refine ⟨_, step_reload_of_idle hlive hdue hscript hp, rfl, rfl, rfl, rfl, fun _ => rfl, fun base hb he hwf => ?_⟩
    rw [callAttach_of_valid (s := reload (popped s rest)) rfl hb he hwf]
    exact ⟨rfl, rfl⟩
  · have hcase : FsmCase (popped s s.script) (fsmStep (popped s s.script)) := fsmStep_cases ((live_iff s).1 hlive).1
    exact ⟨_, step_reload_of_running hlive hdue hscript hp, rfl, hcase.handle, hcase.script⟩

end Sys2Proof.Machine
end

section
/-! SUPPORT. The end of a run: in a final state the turn is the host's, which has none left, and the protocol FSM in IDLE
has no transition (spec 60 R241; log entry 7). -/

namespace Sys2Proof.Machine

variable {s : State}

/-- A final state: nothing left in the script, the protocol FSM and the engine idle, and the state live. -/
theorem final_iff (s : State) :
    s.final = true ↔ s.script = [] ∧ s.fsm.pc = .idle ∧ s.dev.eng = .idle ∧ s.live = true := by
  simp [State.final, and_assoc]

/-- Where no engine step is awaited the passing of a host turn changes nothing. -/
theorem tick_of_not_awaited (h : s.due = none) : s.tick = s := by
  rw [State.tick, h, Option.map_none, ← h]
  rfl

/-- Settles O11: the engine is idle, so the step is the host's turn; with no turn listed that is a transition of the
FSM, which in IDLE has none. -/
theorem finalStateStays : Obligations.FinalStateStays := by
  intro s hfinal hdue
  obtain ⟨hscript, hp, he, hlive⟩ := (final_iff s).1 hfinal
  have hidle : fsmStep s = s := (fsmStep_cases ((live_iff s).1 hlive).1).eq_of_idle hp
  rw [step_fsm hlive (engineDue_of_idle he) hscript, tick_of_not_awaited hdue, hidle]

end Sys2Proof.Machine
end

section
/-! SUPPORT. The two ways a call of `attach` with a base fails: the abort where the window would wrap, and the fault of
its CONFIG write while an exchange is in flight (spec 20 R51, 60 R221, R227; log entries 8 and 13). -/

namespace Sys2Proof.Machine

open Sys2Proof.Claims

variable {s : State} {base : Nat}

/-- With a base whose window would wrap attach aborts. -/
theorem callAttach_of_wrapping (ha : s.fsm.att = .unattached) (hb : 2 ^ s.params.addrW ≤ base + 15) :
    callAttach (some base) s = attachFail s := by
  have hbad : ¬ baseOk s.params base = true := fun h => hb.not_gt ((baseOk_iff _ _).1 h)
  rw [callAttach, if_neg (not_not.2 ha)]
  exact if_neg hbad

/-- While an exchange is in flight the CONFIG write of attach is turned away. -/
theorem attachMapped_of_busy {b : Byte} (he : s.dev.eng = .busy b) : attachMapped base s = .error .cfgBusy := by
  have hwrite := wrConfig_of_busy (s := s.setFsm { s.fsm with handle := some (Handle.ofBase base) }) he
  simp only [attachMapped, configure, hwrite]

/-- Settles O37: a wrapping base aborts as no mapping does; with a valid base the call commits its CONFIG write, which
an exchange in flight turns away. -/
theorem attachAbortsOrFaults : Obligations.AttachAbortsOrFaults := by
  refine fun s base ha => ⟨fun hb => ?_, fun hb hf ⟨b, he⟩ => ?_⟩
  · rw [callAttach_of_wrapping ha hb, callAttach_of_no_mapping ha]
  · rw [callAttach_of_baseOk ha ((baseOk_iff _ _).2 hb), attachMapped_of_busy he, commit_error, raiseFault_of_none hf,
      encode_eq_writeWord]
    rfl

end Sys2Proof.Machine
end

section
/-! SUPPORT. Hazard H2: an accepted DATA write clears DONE in the same step, so a STATUS read placed after it finds
DONE = 0 (spec 70 R255, 40 R102, R106). -/

namespace Sys2Proof.Machine

open Sys2Proof.Claims

variable {s : State}

/-- A STATUS read of a live state in which the flag is known gives that DONE bit. -/
theorem exec_rdStatus_of_done {d : Bool} (hlive : s.live = true) (hdone : s.dev.done = some d) :
    ∃ u r, exec .rdStatus s = .next u ∧ adds s u [.busR 0x4#4 r] ∧ statusDone s.params r = d :=
  ⟨_, _, exec_rdStatus_of_readDone hlive (readDone_some hdone), rfl, statusDone_statusByte _ _ _⟩

/-- Settles O32: the write that takes no fault started its exchange, which left DONE clear and the state live. -/
theorem pollAfterWriteSeesClear : Obligations.PollAfterWriteSeesClear := by
  intro s t v hexec hfault
  obtain ⟨hlive, _, _, rfl⟩ := wrData_accepted hexec hfault
  exact exec_rdStatus_of_done (s := beginExchange v s) hlive rfl

end Sys2Proof.Machine
end

section
/-! SUPPORT. The reset turn: the block takes its reset values, and what is not the block's is left (spec 70 R250, R251;
log entry 10). -/

namespace Sys2Proof.Machine

open Sys2Proof.Claims

variable {s : State} {rest : List HostAct}

/-- A reset turn resets the block. -/
theorem hostTurn_reset (h : s.script = .reset :: rest) : hostTurn s = .next (resetBlock (s.setScript rest)) := by
  simp only [hostTurn, h]

/-- The step that takes a reset turn is the reset of the block. -/
theorem step_reset (hlive : s.live = true) (hdue : s.engineDue = false) (hscript : s.script = .reset :: rest) :
    step s = .next (resetBlock (popped s rest)) := by
  rw [step_host hlive hdue, hostTurn_reset (s := s.tick) hscript, popped_eq]

/-- Settles O14: the step resets the block, whose effect can be read off field by field. -/
theorem resetEventRestoresReset : Obligations.ResetEventRestoresReset :=
  fun _ _ hlive hdue hscript => ⟨_, step_reset hlive hdue hscript, rfl, rfl, rfl, rfl, rfl, fun _ => rfl⟩

end Sys2Proof.Machine
end

section
/-! SUPPORT. A request word placed where the step takes its next one, as the opcode table numbers it: it is the host's
next turn even where the engine's step had come (spec 30 R77, section 4; log entries 2, 16, 18). -/

namespace Sys2Proof.Machine

open Sys2Proof.Claims

/-- The number of a request word stands for that word. -/
theorem requestOfTable_toNat (w : ReqWord) : requestOfTable 16 w.toNat = some w := by
  rw [requestOfTable, if_pos ⟨Nat.le_refl 16, w.isLt⟩, BitVec.ofNat_toNat, BitVec.setWidth_eq]

/-- An operation is read back from the number of its word. -/
theorem decodeTableWord_encode (i : Instr) : decodeTableWord 16 (encode i).toNat = some i := by
  simp only [decodeTableWord, requestOfTable_toNat, decode_encode]

/-- Placing the number of a request word places the word. -/
theorem withFetchWord_toNat (s : State) (w : ReqWord) : s.withFetchWord 16 w.toNat = placeRequest w s := by
  simp only [State.withFetchWord, placeTableWord, requestOfTable_toNat]

/-- An engine step that has come waits for one host turn; one that has not falls when it did. -/
theorem postponeEngine_eq (s : State) :
    postponeEngine s = { s with due := if s.engineDue then some 1 else s.due } := by
  cases h : s.engineDue <;> simp [postponeEngine, h, State.setDue]

/-- Once the placed word is taken off the script, an engine step that had come is due again, and any other is one host
turn nearer. -/
theorem popped_placeRequest (w : ReqWord) (s : State) :
    popped (placeRequest w s) s.script =
      { s with due := if s.engineDue then s.due else s.due.map fun k => k - 1 } := by
  rw [placeRequest, postponeEngine_eq]
  cases h : s.engineDue with
  | false => rfl
  | true =>
    have hdue : s.due = some 0 := ((engineDue_iff s).1 h).2
    simp [popped, State.setScript, hdue]

/-- Placing a request word changes neither the device nor the protocol FSM. -/
theorem placeRequest_frame (w : ReqWord) (s : State) :
    (placeRequest w s).dev = s.dev ∧ (placeRequest w s).fsm = s.fsm := by
  rw [placeRequest, postponeEngine_eq]
  exact ⟨rfl, rfl⟩

/-- A placed request word stands before the turns to come. -/
theorem placeRequest_script (w : ReqWord) (s : State) : (placeRequest w s).script = .bus w :: s.script := rfl

/-- Settles O7: the placed word is the host's next turn, so O6 says what the step makes of it. -/
theorem placedWordRunsNext : Obligations.PlacedWordRunsNext := by
  intro s i hlive
  obtain ⟨hdev, hfsm⟩ := placeRequest_frame (encode i) s
  have hlive' : (placeRequest (encode i) s).live = true := by rw [State.live, hdev]; exact hlive
  obtain ⟨hreachable, hfailed⟩ := stepRunsTheRequest _ _ _ hlive' (placeRequest_engineDue _ _)
    (placeRequest_script (encode i) s)
  rw [hfsm, popped_placeRequest] at hreachable hfailed
  rw [withFetchWord_toNat]
  exact ⟨decodeTableWord_encode i, fun hatt => (hreachable hatt).1 i (decode_encode i), hfailed⟩

end Sys2Proof.Machine
end
